-- ==== Sys2Proof/Word.lean ====
section
/-! DEFINITION. The words of the machine: register and data words, halfwords, bytes, and register numbers. -/

namespace Sys2Proof

/-- A 32-bit word: a register, an address, an instruction (00_scope.md R6, R8). -/
abbrev Word := BitVec 32

/-- A 16-bit halfword: immediates and offsets, and what LH, LHU and SH move (30_encoding.md R91). -/
abbrev Half := BitVec 16

/-- A byte, the unit of memory (20_memory.md R61). -/
abbrev Byte := BitVec 8

/-- A general register's number, 0 to 31 (10_state.md R30). -/
abbrev Reg := Fin 32

end Sys2Proof
end

