-- ==== Sys2Proof/Syntax.lean ====
section
/-! DEFINITION. The 53 instructions of 30_encoding.md R100, one constructor for each row of spec/opcode_table.json.
A constructor holds exactly the fields its instruction uses (30_encoding.md R105: the other fields are ignored). -/

namespace Sys2Proof

/-- An instruction, its operands in the order of the assembler forms of 30_encoding.md R109. -/
inductive Instr where
  -- register-type, opcode 0 (41_register_type.md)
  | add (rd rs rt : Reg)
  | addu (rd rs rt : Reg)
  | sub (rd rs rt : Reg)
  | subu (rd rs rt : Reg)
  | and (rd rs rt : Reg)
  | or (rd rs rt : Reg)
  | xor (rd rs rt : Reg)
  | slt (rd rs rt : Reg)
  | sltu (rd rs rt : Reg)
  | sll (rd rt : Reg) (sa : BitVec 5)
  | srl (rd rt : Reg) (sa : BitVec 5)
  | sra (rd rt : Reg) (sa : BitVec 5)
  | sllv (rd rt rs : Reg)
  | srlv (rd rt rs : Reg)
  | srav (rd rt rs : Reg)
  | mult (rs rt : Reg)
  | multu (rs rt : Reg)
  | div (rs rt : Reg)
  | divu (rs rt : Reg)
  | mfhi (rd : Reg)
  | mflo (rd : Reg)
  | mthi (rs : Reg)
  | mtlo (rs : Reg)
  | jr (rs : Reg)
  | jalr (rd rs : Reg)
  -- branch family, opcode 1 (42_branch_family.md)
  | bltz (rs : Reg) (offset : Half)
  | bgez (rs : Reg) (offset : Half)
  | bltzal (rs : Reg) (offset : Half)
  | bgezal (rs : Reg) (offset : Half)
  -- immediate branches and absolute jumps (44_branch_jump.md)
  | j (index : BitVec 26)
  | jal (index : BitVec 26)
  | beq (rs rt : Reg) (offset : Half)
  | bne (rs rt : Reg) (offset : Half)
  | blez (rs : Reg) (offset : Half)
  | bgtz (rs : Reg) (offset : Half)
  -- immediate arithmetic and logic (43_immediate_alu.md)
  | addi (rt rs : Reg) (imm : Half)
  | addiu (rt rs : Reg) (imm : Half)
  | slti (rt rs : Reg) (imm : Half)
  | sltiu (rt rs : Reg) (imm : Half)
  | andi (rt rs : Reg) (imm : Half)
  | ori (rt rs : Reg) (imm : Half)
  | xori (rt rs : Reg) (imm : Half)
  | lui (rt : Reg) (imm : Half)
  -- loads and stores (45_load_store.md), `base` the register in the rs field
  | lb (rt base : Reg) (offset : Half)
  | lbu (rt base : Reg) (offset : Half)
  | lh (rt base : Reg) (offset : Half)
  | lhu (rt base : Reg) (offset : Half)
  | lw (rt base : Reg) (offset : Half)
  | lwl (rt base : Reg) (offset : Half)
  | lwr (rt base : Reg) (offset : Half)
  | sb (rt base : Reg) (offset : Half)
  | sh (rt base : Reg) (offset : Half)
  | sw (rt base : Reg) (offset : Half)
deriving DecidableEq, Repr

end Sys2Proof
end

