-- ==== Sys2Proof/WellFormed.lean ====
section
/-! DEFINITION. Well-formedness of operands: a value fits the field that carries it (30_encoding.md R91, R108: "for
values within each field's bit width"). The operands of `Instr` are typed, so every instruction passes; the checks are
for numbers that come from outside, and `Instr.operands` says which field carries which operand. -/

namespace Sys2Proof

/-- The fields of an instruction word (30_encoding.md R91). -/
inductive Field where
  | op | rs | rt | rd | sa | funct | imm | index
deriving DecidableEq, Repr

/-- The width of a field in bits (30_encoding.md R91). -/
def Field.width : Field → Nat
  | .op => 6
  | .rs => 5
  | .rt => 5
  | .rd => 5
  | .sa => 5
  | .funct => 6
  | .imm => 16
  | .index => 26

/-- The check on one operand: its number fits the field's width. -/
def Field.fits (f : Field) (v : Nat) : Bool := v < 2 ^ f.width

/-- The check on a list of operands: each fits its field, and no field is given twice. -/
def operandsFit (l : List (Field × Nat)) : Bool :=
  l.all (fun p => p.1.fits p.2) && decide (l.map Prod.fst).Nodup

/-- The operands of an instruction with the field that carries each (30_encoding.md R97, R109). -/
def Instr.operands : Instr → List (Field × Nat)
  | .add rd rs rt | .addu rd rs rt | .sub rd rs rt | .subu rd rs rt | .and rd rs rt | .or rd rs rt | .xor rd rs rt
  | .slt rd rs rt | .sltu rd rs rt | .sllv rd rt rs | .srlv rd rt rs | .srav rd rt rs =>
      [(.rs, rs.val), (.rt, rt.val), (.rd, rd.val)]
  | .sll rd rt sa | .srl rd rt sa | .sra rd rt sa => [(.rt, rt.val), (.rd, rd.val), (.sa, sa.toNat)]
  | .mult rs rt | .multu rs rt | .div rs rt | .divu rs rt => [(.rs, rs.val), (.rt, rt.val)]
  | .mfhi rd | .mflo rd => [(.rd, rd.val)]
  | .mthi rs | .mtlo rs | .jr rs => [(.rs, rs.val)]
  | .jalr rd rs => [(.rs, rs.val), (.rd, rd.val)]
  | .bltz rs offset | .bgez rs offset | .bltzal rs offset | .bgezal rs offset | .blez rs offset | .bgtz rs offset =>
      [(.rs, rs.val), (.imm, offset.toNat)]
  | .j index | .jal index => [(.index, index.toNat)]
  | .beq rs rt offset | .bne rs rt offset => [(.rs, rs.val), (.rt, rt.val), (.imm, offset.toNat)]
  | .addi rt rs imm | .addiu rt rs imm | .slti rt rs imm | .sltiu rt rs imm | .andi rt rs imm | .ori rt rs imm
  | .xori rt rs imm => [(.rs, rs.val), (.rt, rt.val), (.imm, imm.toNat)]
  | .lui rt imm => [(.rt, rt.val), (.imm, imm.toNat)]
  | .lb rt base offset | .lbu rt base offset | .lh rt base offset | .lhu rt base offset | .lw rt base offset
  | .lwl rt base offset | .lwr rt base offset | .sb rt base offset | .sh rt base offset | .sw rt base offset =>
      [(.rs, base.val), (.rt, rt.val), (.imm, offset.toNat)]

/-- An instruction is well formed when its operands fit the fields that carry them. -/
def Instr.wf (i : Instr) : Bool := operandsFit i.operands

end Sys2Proof
end

