-- ==== Sys2Proof/Decode.lean ====
section
/-! DEFINITION. The decoder and the encoder: the fields of a word (30_encoding.md R91), dispatch by `op`, then `funct` or
`rt` (R99, R101 to R103), and the words of an instruction, written from the same tables. -/

namespace Sys2Proof

/-- Why bytes are no instruction (30_encoding.md R104), by the field that selects nothing. -/
inductive DecodeError where
  /-- fewer than four bytes were given (30_encoding.md R90) -/
  | truncated
  /-- no instruction has this primary opcode (R103) -/
  | noOpcode (op : BitVec 6)
  /-- no register-type instruction has this function code (R101) -/
  | noFunction (funct : BitVec 6)
  /-- no branch-family instruction has this sub-function (R102) -/
  | noBranch (sub : BitVec 5)
deriving DecidableEq, Repr

/-! ### Fields (30_encoding.md R91) -/

/-- Bits 31 to 26, the primary opcode. -/
def opField (w : Word) : BitVec 6 := w.extractLsb' 26 6
/-- Bits 25 to 21. -/
def rsField (w : Word) : Reg := Fin.ofNat 32 (w.extractLsb' 21 5).toNat
/-- Bits 20 to 16 as they stand, the branch sub-function of opcode 1 (30_encoding.md R95). -/
def subField (w : Word) : BitVec 5 := w.extractLsb' 16 5
/-- Bits 20 to 16. -/
def rtField (w : Word) : Reg := Fin.ofNat 32 (w.extractLsb' 16 5).toNat
/-- Bits 15 to 11. -/
def rdField (w : Word) : Reg := Fin.ofNat 32 (w.extractLsb' 11 5).toNat
/-- Bits 10 to 6. -/
def saField (w : Word) : BitVec 5 := w.extractLsb' 6 5
/-- Bits 5 to 0. -/
def functField (w : Word) : BitVec 6 := w.extractLsb' 0 6
/-- Bits 15 to 0. -/
def immField (w : Word) : Half := w.extractLsb' 0 16
/-- Bits 25 to 0. -/
def indexField (w : Word) : BitVec 26 := w.extractLsb' 0 26

/-- The number of a field's lowest bit (30_encoding.md R91). -/
def Field.lo : Field → Nat
  | .op => 26
  | .rs => 21
  | .rt => 16
  | .rd => 11
  | .sa => 6
  | .funct => 0
  | .imm => 0
  | .index => 0

/-- The bits of a word that a field covers. -/
def Field.mask (f : Field) : Word := BitVec.ofNat 32 (2 ^ f.width - 1) <<< f.lo

/-- A field's value, extracted by "masking and shifting a fixed bit range" (30_encoding.md R91). -/
def Field.get (f : Field) (w : Word) : Nat := ((w &&& f.mask) >>> f.lo).toNat

/-- The word with a field set to a value; the value is masked, so that fields do not overlap (30_encoding.md R108). -/
def Field.set (f : Field) (v : Nat) (w : Word) : Word :=
  (w &&& ~~~f.mask) ||| ((BitVec.ofNat 32 v <<< f.lo) &&& f.mask)

/-! ### Decoding -/

/-- Opcode 0, selected by the function code (30_encoding.md R101). -/
def decodeRegisterType (w : Word) : Except DecodeError Instr :=
  let rs := rsField w
  let rt := rtField w
  let rd := rdField w
  let sa := saField w
  match functField w with
  | 0x00#6 => .ok (.sll rd rt sa)
  | 0x02#6 => .ok (.srl rd rt sa)
  | 0x03#6 => .ok (.sra rd rt sa)
  | 0x04#6 => .ok (.sllv rd rt rs)
  | 0x06#6 => .ok (.srlv rd rt rs)
  | 0x07#6 => .ok (.srav rd rt rs)
  | 0x08#6 => .ok (.jr rs)
  | 0x09#6 => .ok (.jalr rd rs)
  | 0x10#6 => .ok (.mfhi rd)
  | 0x11#6 => .ok (.mthi rs)
  | 0x12#6 => .ok (.mflo rd)
  | 0x13#6 => .ok (.mtlo rs)
  | 0x18#6 => .ok (.mult rs rt)
  | 0x19#6 => .ok (.multu rs rt)
  | 0x1A#6 => .ok (.div rs rt)
  | 0x1B#6 => .ok (.divu rs rt)
  | 0x20#6 => .ok (.add rd rs rt)
  | 0x21#6 => .ok (.addu rd rs rt)
  | 0x22#6 => .ok (.sub rd rs rt)
  | 0x23#6 => .ok (.subu rd rs rt)
  | 0x24#6 => .ok (.and rd rs rt)
  | 0x25#6 => .ok (.or rd rs rt)
  | 0x26#6 => .ok (.xor rd rs rt)
  | 0x2A#6 => .ok (.slt rd rs rt)
  | 0x2B#6 => .ok (.sltu rd rs rt)
  | funct => .error (.noFunction funct)

/-- Opcode 1, selected by the branch sub-function in the rt field (30_encoding.md R102). -/
def decodeBranchFamily (w : Word) : Except DecodeError Instr :=
  let rs := rsField w
  let offset := immField w
  match subField w with
  | 0x00#5 => .ok (.bltz rs offset)
  | 0x01#5 => .ok (.bgez rs offset)
  | 0x10#5 => .ok (.bltzal rs offset)
  | 0x11#5 => .ok (.bgezal rs offset)
  | sub => .error (.noBranch sub)

/-- An instruction word (30_encoding.md R99, R103). -/
def decodeWord (w : Word) : Except DecodeError Instr :=
  let rs := rsField w
  let rt := rtField w
  let imm := immField w
  let index := indexField w
  match opField w with
  | 0x00#6 => decodeRegisterType w
  | 0x01#6 => decodeBranchFamily w
  | 0x02#6 => .ok (.j index)
  | 0x03#6 => .ok (.jal index)
  | 0x04#6 => .ok (.beq rs rt imm)
  | 0x05#6 => .ok (.bne rs rt imm)
  | 0x06#6 => .ok (.blez rs imm)
  | 0x07#6 => .ok (.bgtz rs imm)
  | 0x08#6 => .ok (.addi rt rs imm)
  | 0x09#6 => .ok (.addiu rt rs imm)
  | 0x0A#6 => .ok (.slti rt rs imm)
  | 0x0B#6 => .ok (.sltiu rt rs imm)
  | 0x0C#6 => .ok (.andi rt rs imm)
  | 0x0D#6 => .ok (.ori rt rs imm)
  | 0x0E#6 => .ok (.xori rt rs imm)
  | 0x0F#6 => .ok (.lui rt imm)
  | 0x20#6 => .ok (.lb rt rs imm)
  | 0x21#6 => .ok (.lh rt rs imm)
  | 0x22#6 => .ok (.lwl rt rs imm)
  | 0x23#6 => .ok (.lw rt rs imm)
  | 0x24#6 => .ok (.lbu rt rs imm)
  | 0x25#6 => .ok (.lhu rt rs imm)
  | 0x26#6 => .ok (.lwr rt rs imm)
  | 0x28#6 => .ok (.sb rt rs imm)
  | 0x29#6 => .ok (.sh rt rs imm)
  | 0x2B#6 => .ok (.sw rt rs imm)
  | op => .error (.noOpcode op)

/-- The word four bytes stand for, the first byte the most significant (20_memory.md R63, R65). -/
def wordOfBytes (b0 b1 b2 b3 : Byte) : Word := b0 ++ b1 ++ b2 ++ b3

/-- The byte that lies `k` bytes after a word's address, `k` 0 to 3 (20_memory.md R64, R66). -/
def byteOfWord (w : Word) (k : Nat) : Byte := w.extractLsb' (24 - 8 * k) 8

/-- The bytes of a word in the order in which memory holds them (20_memory.md R64). -/
def bytesOfWord (w : Word) : List Byte := [byteOfWord w 0, byteOfWord w 1, byteOfWord w 2, byteOfWord w 3]

/-- The instruction at the head of any list of bytes, with the bytes after it, or why there is none. -/
def decodeBytes : List Byte → Except DecodeError (Instr × List Byte)
  | b0 :: b1 :: b2 :: b3 :: rest =>
    match decodeWord (wordOfBytes b0 b1 b2 b3) with
    | .ok i => .ok (i, rest)
    | .error e => .error e
  | _ => .error .truncated

/-! ### Encoding -/

/-- A register number as the five bits of a field. -/
def regBits (r : Reg) : BitVec 5 := BitVec.ofNat 5 r.val

/-- The register-type format with opcode 0 (30_encoding.md R92). -/
def encodeR (rs rt rd : BitVec 5) (sa : BitVec 5) (funct : BitVec 6) : Word := 0x00#6 ++ rs ++ rt ++ rd ++ sa ++ funct

/-- The immediate format, and with the sub-function in place of `rt` the branch-family format (R93, R95). -/
def encodeI (op : BitVec 6) (rs rt : BitVec 5) (imm : Half) : Word := op ++ rs ++ rt ++ imm

/-- The jump format (R94). -/
def encodeJ (op : BitVec 6) (index : BitVec 26) : Word := op ++ index

/-- The word of an instruction. The fields an instruction does not use are zero, as an assembler writes them
(30_encoding.md R109). -/
def encode : Instr → Word
  | .add rd rs rt => encodeR (regBits rs) (regBits rt) (regBits rd) 0 0x20
  | .addu rd rs rt => encodeR (regBits rs) (regBits rt) (regBits rd) 0 0x21
  | .sub rd rs rt => encodeR (regBits rs) (regBits rt) (regBits rd) 0 0x22
  | .subu rd rs rt => encodeR (regBits rs) (regBits rt) (regBits rd) 0 0x23
  | .and rd rs rt => encodeR (regBits rs) (regBits rt) (regBits rd) 0 0x24
  | .or rd rs rt => encodeR (regBits rs) (regBits rt) (regBits rd) 0 0x25
  | .xor rd rs rt => encodeR (regBits rs) (regBits rt) (regBits rd) 0 0x26
  | .slt rd rs rt => encodeR (regBits rs) (regBits rt) (regBits rd) 0 0x2A
  | .sltu rd rs rt => encodeR (regBits rs) (regBits rt) (regBits rd) 0 0x2B
  | .sll rd rt sa => encodeR 0 (regBits rt) (regBits rd) sa 0x00
  | .srl rd rt sa => encodeR 0 (regBits rt) (regBits rd) sa 0x02
  | .sra rd rt sa => encodeR 0 (regBits rt) (regBits rd) sa 0x03
  | .sllv rd rt rs => encodeR (regBits rs) (regBits rt) (regBits rd) 0 0x04
  | .srlv rd rt rs => encodeR (regBits rs) (regBits rt) (regBits rd) 0 0x06
  | .srav rd rt rs => encodeR (regBits rs) (regBits rt) (regBits rd) 0 0x07
  | .mult rs rt => encodeR (regBits rs) (regBits rt) 0 0 0x18
  | .multu rs rt => encodeR (regBits rs) (regBits rt) 0 0 0x19
  | .div rs rt => encodeR (regBits rs) (regBits rt) 0 0 0x1A
  | .divu rs rt => encodeR (regBits rs) (regBits rt) 0 0 0x1B
  | .mfhi rd => encodeR 0 0 (regBits rd) 0 0x10
  | .mflo rd => encodeR 0 0 (regBits rd) 0 0x12
  | .mthi rs => encodeR (regBits rs) 0 0 0 0x11
  | .mtlo rs => encodeR (regBits rs) 0 0 0 0x13
  | .jr rs => encodeR (regBits rs) 0 0 0 0x08
  | .jalr rd rs => encodeR (regBits rs) 0 (regBits rd) 0 0x09
  | .bltz rs offset => encodeI 0x01 (regBits rs) 0x00 offset
  | .bgez rs offset => encodeI 0x01 (regBits rs) 0x01 offset
  | .bltzal rs offset => encodeI 0x01 (regBits rs) 0x10 offset
  | .bgezal rs offset => encodeI 0x01 (regBits rs) 0x11 offset
  | .j index => encodeJ 0x02 index
  | .jal index => encodeJ 0x03 index
  | .beq rs rt offset => encodeI 0x04 (regBits rs) (regBits rt) offset
  | .bne rs rt offset => encodeI 0x05 (regBits rs) (regBits rt) offset
  | .blez rs offset => encodeI 0x06 (regBits rs) 0 offset
  | .bgtz rs offset => encodeI 0x07 (regBits rs) 0 offset
  | .addi rt rs imm => encodeI 0x08 (regBits rs) (regBits rt) imm
  | .addiu rt rs imm => encodeI 0x09 (regBits rs) (regBits rt) imm
  | .slti rt rs imm => encodeI 0x0A (regBits rs) (regBits rt) imm
  | .sltiu rt rs imm => encodeI 0x0B (regBits rs) (regBits rt) imm
  | .andi rt rs imm => encodeI 0x0C (regBits rs) (regBits rt) imm
  | .ori rt rs imm => encodeI 0x0D (regBits rs) (regBits rt) imm
  | .xori rt rs imm => encodeI 0x0E (regBits rs) (regBits rt) imm
  | .lui rt imm => encodeI 0x0F 0 (regBits rt) imm
  | .lb rt base offset => encodeI 0x20 (regBits base) (regBits rt) offset
  | .lbu rt base offset => encodeI 0x24 (regBits base) (regBits rt) offset
  | .lh rt base offset => encodeI 0x21 (regBits base) (regBits rt) offset
  | .lhu rt base offset => encodeI 0x25 (regBits base) (regBits rt) offset
  | .lw rt base offset => encodeI 0x23 (regBits base) (regBits rt) offset
  | .lwl rt base offset => encodeI 0x22 (regBits base) (regBits rt) offset
  | .lwr rt base offset => encodeI 0x26 (regBits base) (regBits rt) offset
  | .sb rt base offset => encodeI 0x28 (regBits base) (regBits rt) offset
  | .sh rt base offset => encodeI 0x29 (regBits base) (regBits rt) offset
  | .sw rt base offset => encodeI 0x2B (regBits base) (regBits rt) offset

/-- The bytes of an instruction as memory holds them. -/
def encodeBytes (i : Instr) : List Byte := bytesOfWord (encode i)

/-! ### The opcode table -/

/-- A row of spec/opcode_table.json: the bits that select an instruction, and their values. -/
structure OpcodeRow where
  mask : Word
  bits : Word
deriving DecidableEq, Repr

/-- A row of opcode 0. -/
def rowR (funct : Word) : OpcodeRow := ⟨0xFC00003F#32, funct⟩
/-- A row of opcode 1. -/
def rowB (bits : Word) : OpcodeRow := ⟨0xFC1F0000#32, bits⟩
/-- A row selected by the opcode alone. -/
def rowI (bits : Word) : OpcodeRow := ⟨0xFC000000#32, bits⟩

/-- The table's row of an instruction. -/
def Instr.row : Instr → OpcodeRow
  | .add _ _ _ => rowR 0x20#32
  | .addu _ _ _ => rowR 0x21#32
  | .sub _ _ _ => rowR 0x22#32
  | .subu _ _ _ => rowR 0x23#32
  | .and _ _ _ => rowR 0x24#32
  | .or _ _ _ => rowR 0x25#32
  | .xor _ _ _ => rowR 0x26#32
  | .slt _ _ _ => rowR 0x2A#32
  | .sltu _ _ _ => rowR 0x2B#32
  | .sll _ _ _ => rowR 0x00#32
  | .srl _ _ _ => rowR 0x02#32
  | .sra _ _ _ => rowR 0x03#32
  | .sllv _ _ _ => rowR 0x04#32
  | .srlv _ _ _ => rowR 0x06#32
  | .srav _ _ _ => rowR 0x07#32
  | .mult _ _ => rowR 0x18#32
  | .multu _ _ => rowR 0x19#32
  | .div _ _ => rowR 0x1A#32
  | .divu _ _ => rowR 0x1B#32
  | .mfhi _ => rowR 0x10#32
  | .mflo _ => rowR 0x12#32
  | .mthi _ => rowR 0x11#32
  | .mtlo _ => rowR 0x13#32
  | .jr _ => rowR 0x08#32
  | .jalr _ _ => rowR 0x09#32
  | .bltz _ _ => rowB 0x04000000#32
  | .bgez _ _ => rowB 0x04010000#32
  | .bltzal _ _ => rowB 0x04100000#32
  | .bgezal _ _ => rowB 0x04110000#32
  | .j _ => rowI 0x08000000#32
  | .jal _ => rowI 0x0C000000#32
  | .beq _ _ _ => rowI 0x10000000#32
  | .bne _ _ _ => rowI 0x14000000#32
  | .blez _ _ => rowI 0x18000000#32
  | .bgtz _ _ => rowI 0x1C000000#32
  | .addi _ _ _ => rowI 0x20000000#32
  | .addiu _ _ _ => rowI 0x24000000#32
  | .slti _ _ _ => rowI 0x28000000#32
  | .sltiu _ _ _ => rowI 0x2C000000#32
  | .andi _ _ _ => rowI 0x30000000#32
  | .ori _ _ _ => rowI 0x34000000#32
  | .xori _ _ _ => rowI 0x38000000#32
  | .lui _ _ => rowI 0x3C000000#32
  | .lb _ _ _ => rowI 0x80000000#32
  | .lbu _ _ _ => rowI 0x90000000#32
  | .lh _ _ _ => rowI 0x84000000#32
  | .lhu _ _ _ => rowI 0x94000000#32
  | .lw _ _ _ => rowI 0x8C000000#32
  | .lwl _ _ _ => rowI 0x88000000#32
  | .lwr _ _ _ => rowI 0x98000000#32
  | .sb _ _ _ => rowI 0xA0000000#32
  | .sh _ _ _ => rowI 0xA4000000#32
  | .sw _ _ _ => rowI 0xAC000000#32

/-- The bits of a word that an instruction reads: those that select it and those of its operands' fields. The others
are ignored (30_encoding.md R105). -/
def Instr.usedMask (i : Instr) : Word := i.operands.foldl (fun m p => m ||| p.1.mask) i.row.mask

/-- The rows of opcode 0 (30_encoding.md R101), by function code. -/
def registerTypeRows : List OpcodeRow :=
  [0x00#32, 0x02#32, 0x03#32, 0x04#32, 0x06#32, 0x07#32, 0x08#32, 0x09#32, 0x10#32, 0x11#32, 0x12#32, 0x13#32,
   0x18#32, 0x19#32, 0x1A#32, 0x1B#32, 0x20#32, 0x21#32, 0x22#32, 0x23#32, 0x24#32, 0x25#32, 0x26#32, 0x2A#32,
   0x2B#32].map rowR

/-- The rows of opcode 1 (30_encoding.md R102). -/
def branchFamilyRows : List OpcodeRow :=
  [0x04000000#32, 0x04010000#32, 0x04100000#32, 0x04110000#32].map rowB

/-- The rows that the opcode alone selects (30_encoding.md R103). -/
def opcodeOnlyRows : List OpcodeRow :=
  [0x08000000#32, 0x0C000000#32, 0x10000000#32, 0x14000000#32, 0x18000000#32, 0x1C000000#32, 0x20000000#32,
   0x24000000#32, 0x28000000#32, 0x2C000000#32, 0x30000000#32, 0x34000000#32, 0x38000000#32, 0x3C000000#32,
   0x80000000#32, 0x84000000#32, 0x88000000#32, 0x8C000000#32, 0x90000000#32, 0x94000000#32, 0x98000000#32,
   0xA0000000#32, 0xA4000000#32, 0xAC000000#32].map rowI

/-- The 53 rows of spec/opcode_table.json. -/
def opcodeRows : List OpcodeRow := registerTypeRows ++ branchFamilyRows ++ opcodeOnlyRows

/-- A word matches a row when the selecting bits have the row's values. -/
def OpcodeRow.matchesWord (r : OpcodeRow) (w : Word) : Bool := w &&& r.mask == r.bits

/-! ### The host's view of the decoder -/

/-- The instruction the decoder reads from a row's word `w` of `nbits` bits, bit 0 the least significant bit of the
word; the bits above `nbits` are 0. The word is laid out as memory holds it and given to `decodeBytes`. -/
def decodeTableWord (nbits w : Nat) : Option Instr :=
  match decodeBytes (bytesOfWord (BitVec.ofNat 32 (w % 2 ^ nbits))) with
  | .ok (i, []) => some i
  | _ => none

end Sys2Proof
end

