-- ==== Sys2Proof/Config.lean ====
section
/-! DEFINITION. What the spec leaves to the implementation: the named parameters of 00_scope.md R6 that stay fixed
while a machine runs. A constant without a body is a free value: no proof can learn what it is. -/

namespace Sys2Proof

/-- The two readings of LWR at an aligned address (45_load_store.md R269). -/
inductive LwrAligned where
  | mergeLowByte
  | fullWord
deriving DecidableEq, Repr, Inhabited

/-- `P_DIV_MIN_NEG1`, the pair (`hi`, `lo`) DIV writes for 0x80000000 divided by 0xFFFFFFFF
(41_register_type.md R172, 92_eei_decisions.md D10). A free value, assumption 6. -/
opaque Config.divMinNeg1 : Word × Word

/-- `P_LWR_ALIGNED` (45_load_store.md R269, 92_eei_decisions.md D12). A free value, assumption 7. -/
opaque Config.lwrAligned : LwrAligned

/-- The bytes a failed memory write leaves behind (20_memory.md R62, 92_eei_decisions.md D15), one for each value
of the counter `Memory.freeIndex`. Free values, assumption 5. -/
opaque Config.failedWriteByte : Nat → Byte

/-- DESIGN CHOICE: what a byte of memory that nothing has written reads as. Unsafe, assumption 4. -/
def Config.unlistedByte : Byte := 0#8

/-- DESIGN CHOICE: `P_MEM_SIZE` of the memory that `State.reset` is bound to, the whole address space.
Unsafe, assumption 3. Every other size is a value of the field `Memory.size`. -/
def Config.memSizeAtReset : Nat := 4294967296

end Sys2Proof
end

