-- ==== Sys2Proof/Machine/State.lean ====
section
/-! DEFINITION. The machine's state, plain data, and the reasons a step stops. -/

namespace Sys2Proof.Machine

/-- A status of the memory interface that is not Ok (20_memory.md R60, 92_eei_decisions.md D28). -/
inductive MemStatus where
  /-- the answer of the reference memory to bytes outside the store (20_memory.md R61) -/
  | invalidAddress
  /-- any other status of a bound memory, by a number of its own -/
  | other (code : Nat)
deriving DecidableEq, Repr

/-- The two requests of the memory interface (20_memory.md R60). -/
inductive Request where
  | read (addr : Word)
  | write (addr value : Word)
deriving DecidableEq, Repr

/-- The requests an entry of `Memory.errors` speaks of: the read of a word, or the write of one value to a word, or, with
no value, of every value. -/
inductive RequestPattern where
  | read (addr : Word)
  | write (addr : Word) (value : Option Word)
deriving DecidableEq, Repr

/-- Requests that the bound memory does not answer with Ok, and the status it answers them with. -/
structure MemError where
  requests : RequestPattern
  status : MemStatus
deriving DecidableEq, Repr

/-- The memory the core is bound to (20_memory.md R60, R61): the parameters `P_MEM` and `P_MEM_SIZE` as plain data.
Assumptions 2, 3, 4 and 5. -/
structure Memory where
  /-- the bytes, in the canonical form of `Memory.wf` -/
  cells : List Host.Cell
  /-- `P_MEM_SIZE`, in bytes -/
  size : Nat
  /-- the requests answered with a status that is not Ok -/
  errors : List MemError
  /-- the model's own: the index of the next free value of a failed write, assumption 5 -/
  freeIndex : Nat
deriving DecidableEq, Repr

/-- What the machine holds (10_state.md: "The core's whole mutable state") and the memory it is bound to. -/
structure State where
  /-- the general registers (R30); register 0 is hard-wired (R31) -/
  gpr : Vector Word 32
  /-- the address of the instruction being executed (R37) -/
  pc : Word
  /-- the address of the next instruction (R38), and so the pending control transfer (R45) -/
  npc : Word
  /-- accumulator half (R42) -/
  hi : Word
  /-- accumulator half (R42) -/
  lo : Word
  /-- the bound memory (20_memory.md R60) -/
  mem : Memory
deriving DecidableEq, Repr

/-- The faults: the statuses of 60_exceptions.md R300 that a step can end with. Each ends the step with nothing
committed (R308), so that the state the host finds is the state before the step, but for the four bytes of a write
request that failed. All are the spec's own, so stopping with one is safe. -/
inductive Fault where
  /-- raised by the fetch of a word that selects no instruction, and by DIV and DIVU by zero (R301); safe -/
  | invalidInstruction
  /-- raised by a misaligned fetch and by misaligned loads and stores (R302); safe -/
  | invalidAddress
  /-- raised by ADD, SUB and ADDI (R303); safe -/
  | arithmeticOverflow
  /-- raised by the fetch, by every load and by SB and SH when the memory answers a read with this status (R304); safe -/
  | memRead (status : MemStatus)
  /-- raised by SB, SH and SW when the memory answers the write of the word at `addr` with this status (R304); safe -/
  | memWrite (addr : Word) (status : MemStatus)
deriving DecidableEq, Repr

/-- The refusals: what the model gives no meaning. -/
inductive Refusal where
  /-- raised by `exec` for an instruction without a meaning, by its mnemonic; safe. No arm answers it. -/
  | notModelled (mnemonic : String)
  /-- raised by the accessor commands for a register index of 32 or more, which "has no meaning and is refused by the
  model" (40_execution_core.md R134); safe, assumption 12. No instruction raises it. -/
  | registerIndex (index : Nat)
deriving DecidableEq, Repr

/-- What a step or a meaning answers. -/
abbrev StepOutcome := Host.Outcome State Fault Refusal

/-- The memory of `State.reset`: nothing listed, no request that fails. Assumptions 2, 3, 4 and 5. -/
def Memory.atReset : Memory := { cells := [], size := Config.memSizeAtReset, errors := [], freeIndex := 0 }

/-- The machine right after construction and reset (10_state.md R46, 70_reset_and_hazards.md R340): every register,
`hi`, `lo` and `pc` 0, `npc` 4. -/
def State.reset : State :=
  { gpr := Vector.replicate 32 0#32
    pc := 0#32
    npc := 4#32
    hi := 0#32
    lo := 0#32
    mem := Memory.atReset }

end Sys2Proof.Machine
end

