-- ==== Sys2Proof/Machine/Flags.lean ====
section
/-! DEFINITION. The hardware has no flags (10_state.md R36). Here stand the tests that take a flag's place: signed
overflow, which ends the step (41_register_type.md R151), comparisons, which write 0 or 1, and the signed tests of
branches against zero (42_branch_family.md R200). -/

namespace Sys2Proof.Machine

/-- Signed overflow of an addition: equal signs, and the result's differs (41_register_type.md R151). -/
def addOverflows (a b : Word) : Bool := a.msb == b.msb && (a + b).msb != a.msb

/-- Signed overflow of a subtraction: unequal signs, and the result's differs from the minuend's
(41_register_type.md R151, 90_conflicts.md C3). -/
def subOverflows (a b : Word) : Bool := a.msb != b.msb && (a - b).msb != a.msb

/-- `bool(c)`, the word 1 or 0 (00_scope.md R8). -/
def boolWord (c : Bool) : Word := if c then 1#32 else 0#32

/-- Signed less than (41_register_type.md R162). -/
def signedLess (a b : Word) : Bool := a.toInt < b.toInt

/-- Unsigned less than (41_register_type.md R163). -/
def unsignedLess (a b : Word) : Bool := a.toNat < b.toNat

/-- The signed value is below zero (42_branch_family.md R203). -/
def isNegative (a : Word) : Bool := a.toInt < 0

/-- The signed value is zero or above (42_branch_family.md R204). -/
def isNonNegative (a : Word) : Bool := 0 ≤ a.toInt

/-- The signed value is zero or below (44_branch_jump.md R243). -/
def isNonPositive (a : Word) : Bool := a.toInt ≤ 0

/-- The signed value is above zero (44_branch_jump.md R244). -/
def isPositive (a : Word) : Bool := 0 < a.toInt

end Sys2Proof.Machine
end

