-- ==== Sys2Proof/Machine/Operands.lean ====
section
/-! DEFINITION. How operands are assembled from instruction fields and state (30_encoding.md R97), the effective address
and lanes of loads and stores (20_memory.md R66, R71; 45_load_store.md R260, R262), and branch and jump targets. -/

namespace Sys2Proof.Machine

/-- Reading a general register: register 0 always yields 0 (10_state.md R31). -/
def State.reg (s : State) (r : Reg) : Word := if r = 0 then 0#32 else s.gpr[r]

/-! ### Immediates (30_encoding.md R97) -/

/-- The sign-extended immediate of ADDI, ADDIU, SLTI, SLTIU, and the load and store offset. -/
def signImm (imm : Half) : Word := imm.signExtend 32

/-- The zero-extended immediate of ANDI, ORI, XORI. -/
def zeroImm (imm : Half) : Word := imm.zeroExtend 32

/-- The upper immediate of LUI, the lower half zero. -/
def upperImm (imm : Half) : Word := imm ++ 0#16

/-- The variable shift amount, the low five bits of the register (41_register_type.md R154). -/
def variableAmount (v : Word) : BitVec 5 := v.extractLsb' 0 5

/-! ### Shifts (41_register_type.md R154) -/

/-- Left shift, filling with zeros. -/
def shiftLeft (v : Word) (amount : BitVec 5) : Word := v <<< amount.toNat

/-- Logical right shift, filling with zeros. -/
def shiftRightLogical (v : Word) (amount : BitVec 5) : Word := v >>> amount.toNat

/-- Arithmetic right shift, filling with copies of bit 31. -/
def shiftRightArithmetic (v : Word) (amount : BitVec 5) : Word := v.sshiftRight amount.toNat

/-! ### Multiplication and division (41_register_type.md R152, R153) -/

/-- The 64-bit product of MULT. -/
def signedProduct (a b : Word) : BitVec 64 := a.signExtend 64 * b.signExtend 64

/-- The 64-bit product of MULTU. -/
def unsignedProduct (a b : Word) : BitVec 64 := a.zeroExtend 64 * b.zeroExtend 64

/-- Bits 63 to 32 of a product. -/
def upperWord (p : BitVec 64) : Word := p.extractLsb' 32 32

/-- Bits 31 to 0 of a product. -/
def lowerWord (p : BitVec 64) : Word := p.extractLsb' 0 32

/-- The pair (`hi`, `lo`) of DIV for a divisor that is not zero: the quotient truncated toward zero in `lo`, the
remainder in `hi`, and for the one quotient that does not fit the free pair `P_DIV_MIN_NEG1` (R172). -/
def signedQuotient (a b : Word) : Word × Word :=
  if a = 0x80000000#32 ∧ b = 0xFFFFFFFF#32 then Config.divMinNeg1
  else
    let q := a.toInt.tdiv b.toInt
    (BitVec.ofInt 32 (a.toInt - q * b.toInt), BitVec.ofInt 32 q)

/-- The pair (`hi`, `lo`) of DIVU for a divisor that is not zero (R173). -/
def unsignedQuotient (a b : Word) : Word × Word :=
  (BitVec.ofNat 32 (a.toNat % b.toNat), BitVec.ofNat 32 (a.toNat / b.toNat))

/-! ### Addresses and lanes -/

/-- The effective address of every load and store, modulo 2^32 (20_memory.md R71). -/
def effectiveAddress (s : State) (base : Reg) (offset : Half) : Word := s.reg base + signImm offset

/-- An address that is not a multiple of `n` (20_memory.md R69). -/
def misaligned (a : Word) (n : Nat) : Bool := a.toNat % n != 0

/-- The byte lane `k = ea mod 4` (45_load_store.md R260). -/
def lane (ea : Word) : Nat := ea.toNat % 4

/-- The aligned word address `ea - (ea mod 4)` (45_load_store.md R260, 90_conflicts.md C6). -/
def wordAddress (ea : Word) : Word := ea - BitVec.ofNat 32 (lane ea)

/-- `byte(w, k)`, bits 31-8k to 24-8k (45_load_store.md R262). -/
def byteLane (w : Word) (k : Nat) : Byte := w.extractLsb' (24 - 8 * k) 8

/-- `half(w, k)`, bits 31-8k to 16-8k, `k` 0 or 2 (45_load_store.md R262). -/
def halfLane (w : Word) (k : Nat) : Half := w.extractLsb' (16 - 8 * k) 16

/-- `setbyte(w, k, b)` (45_load_store.md R262). -/
def setByteLane (w : Word) (k : Nat) (b : Byte) : Word :=
  (w &&& ~~~(0xFF#32 <<< (24 - 8 * k))) ||| (b.zeroExtend 32 <<< (24 - 8 * k))

/-- `sethalf(w, k, h)` (45_load_store.md R262). -/
def setHalfLane (w : Word) (k : Nat) (h : Half) : Word :=
  (w &&& ~~~(0xFFFF#32 <<< (16 - 8 * k))) ||| (h.zeroExtend 32 <<< (16 - 8 * k))

/-- The low byte of a register, which SB stores (45_load_store.md R270). -/
def lowByte (v : Word) : Byte := v.extractLsb' 0 8

/-- The low halfword of a register, which SH stores (45_load_store.md R271). -/
def lowHalf (v : Word) : Half := v.extractLsb' 0 16

/-- What LWR writes at an aligned address, from the old register value and the word (45_load_store.md R269). -/
def lwrResult (reading : LwrAligned) (old w : Word) : Word :=
  match reading with
  | .mergeLowByte => old.extractLsb' 8 24 ++ w.extractLsb' 24 8
  | .fullWord => w

/-! ### Targets -/

/-- The target of every PC-relative branch (42_branch_family.md R201). -/
def branchTarget (s : State) (offset : Half) : Word := s.npc + (signImm offset <<< 2)

/-- The target of J and JAL, the upper four bits those of `pc` (44_branch_jump.md R245). -/
def jumpTarget (s : State) (index : BitVec 26) : Word := s.pc.extractLsb' 28 4 ++ index ++ 0#2

end Sys2Proof.Machine
end

