-- ==== Sys2Proof/Machine/Ops.lean ====
section
/-! DEFINITION. The named operations over memory and registers: the byte store, the memory interface's requests, raising
a fault, the commit that ends every step that succeeds, and the shapes the instructions share. -/

namespace Sys2Proof.Machine

/-! ### The byte store -/

/-- The byte listed for an address, or what an unlisted address reads as. -/
def readCell : List Host.Cell → Nat → Byte
  | [], _ => Config.unlistedByte
  | (b, v) :: rest, a => if a = b then v else readCell rest a

/-- An entry put in its place by address. -/
def insertCell : List Host.Cell → Nat → Byte → List Host.Cell
  | [], a, v => [(a, v)]
  | (b, w) :: rest, a, v => if a < b then (a, v) :: (b, w) :: rest else (b, w) :: insertCell rest a v

/-- The byte at an address replaced. Writing what an unlisted address reads as removes the entry. -/
def writeCell (l : List Host.Cell) (a : Nat) (v : Byte) : List Host.Cell :=
  let others := l.filter (fun c => c.1 != a)
  if v = Config.unlistedByte then others else insertCell others a v

/-- The canonical form: addresses strictly rising and below 2^32, and no entry that an unlisted address equals. -/
def cellsWf : List Host.Cell → Bool
  | [] => true
  | [(a, v)] => decide (a < 4294967296) && v != Config.unlistedByte
  | (a, v) :: (b, w) :: rest => decide (a < b) && v != Config.unlistedByte && cellsWf ((b, w) :: rest)

/-- The memory is in canonical form, so that equal memories are equal data. -/
def Memory.wf (m : Memory) : Bool := cellsWf m.cells

/-- The byte at an address. -/
def Memory.get (m : Memory) (a : Word) : Byte := readCell m.cells a.toNat

/-- The memory with the byte at an address replaced. Between steps it is also the host's write to memory
(40_execution_core.md R142). -/
def Memory.set (m : Memory) (a : Word) (v : Byte) : Memory := { m with cells := writeCell m.cells a.toNat v }

/-- The big-endian word at an address, its most significant byte at the address itself (20_memory.md R63). -/
def Memory.word (m : Memory) (a : Word) : Word :=
  wordOfBytes (m.get a) (m.get (a + 1#32)) (m.get (a + 2#32)) (m.get (a + 3#32))

/-- The memory with the big-endian word at an address replaced (20_memory.md R64). -/
def Memory.setWord (m : Memory) (a v : Word) : Memory :=
  (((m.set a (byteOfWord v 0)).set (a + 1#32) (byteOfWord v 1)).set (a + 2#32) (byteOfWord v 2)).set (a + 3#32)
    (byteOfWord v 3)

/-! ### Requests to the memory interface (20_memory.md R60 to R64) -/

/-- The word address of a request. -/
def Request.addr : Request → Word
  | .read a => a
  | .write a _ => a

/-- An entry of the failing requests speaks of this request. -/
def RequestPattern.covers (p : RequestPattern) (r : Request) : Bool :=
  match p, r with
  | .read a, .read b => a == b
  | .write a none, .write b _ => a == b
  | .write a (some u), .write b v => a == b && u == v
  | .read _, .write _ _ => false
  | .write _ _, .read _ => false

/-- The bound memory's answer to a 4-byte request: `none` is Ok. A request listed in `errors` has the status listed;
any other is Ok exactly when its four bytes lie in the store (20_memory.md R61). -/
def Memory.answer (m : Memory) (r : Request) : Option MemStatus :=
  match m.errors.find? (fun e => e.requests.covers r) with
  | some e => some e.status
  | none => if r.addr.toNat + 4 ≤ m.size then none else some .invalidAddress

/-- `MemReadWord` (20_memory.md R63). -/
def memReadWord (s : State) (a : Word) : Except Fault Word :=
  match s.mem.answer (.read a) with
  | some status => .error (.memRead status)
  | none => .ok (s.mem.word a)

/-- `MemWriteWord` (20_memory.md R64). -/
def memWriteWord (s : State) (a v : Word) : Except Fault State :=
  match s.mem.answer (.write a v) with
  | some status => .error (.memWrite a status)
  | none => .ok { s with mem := s.mem.setWord a v }

/-! ### Faults (60_exceptions.md R308) -/

/-- Raising a fault, the one way a step is given up: no register, `hi`, `lo`, `pc`, `npc` or memory write is
committed, nothing is saved and no mode changes; the status goes to the host, who keeps the state
`State.afterFault`. There is no return from a fault (R309). -/
def raise (f : Fault) : StepOutcome := .fault f

/-- A byte of a write request that failed: a byte of the store takes a free value, an address outside the store holds
none (20_memory.md R62, 92_eei_decisions.md D15). -/
def spoilByte (m : Memory) (a : Word) (index : Nat) : Memory :=
  if a.toNat < m.size then m.set a (Config.failedWriteByte index) else m

/-- The four bytes of a write request that failed, each with its own free value; the counter moves past them. -/
def spoilWord (m : Memory) (a : Word) : Memory :=
  { spoilByte (spoilByte (spoilByte (spoilByte m a m.freeIndex) (a + 1#32) (m.freeIndex + 1)) (a + 2#32)
      (m.freeIndex + 2)) (a + 3#32) (m.freeIndex + 3) with
    freeIndex := m.freeIndex + 4 }

/-- The state the host finds after a step that ended with a fault: the state before the step (40_execution_core.md
R131), but for the four bytes of a memory write that failed (20_memory.md R62). -/
def State.afterFault (s : State) : Fault → State
  | .invalidInstruction => s
  | .invalidAddress => s
  | .arithmeticOverflow => s
  | .memRead _ => s
  | .memWrite a _ => { s with mem := spoilWord s.mem a }

/-! ### Commit (40_execution_core.md R125 to R128, R139) -/

/-- The effect record of an instruction (40_execution_core.md R125). -/
structure Effects where
  gpr : Option (Reg × Word) := none
  hi : Option Word := none
  lo : Option Word := none
  target : Option Word := none
deriving DecidableEq, Repr

/-- The register file after a commit: the one register write, then register 0 forced back to zero (R128). -/
def commitGpr (g : Vector Word 32) (w : Option (Reg × Word)) : Vector Word 32 :=
  match w with
  | some (r, v) => (g.set r v).set 0 0#32
  | none => g.set 0 0#32

/-- The commit of a step: `pc` takes `npc` (R126), `npc` takes the target or advances by 4 (R127), and the registers
take their new values (R128). -/
def State.commit (s : State) (e : Effects) : State :=
  { s with
    gpr := commitGpr s.gpr e.gpr
    hi := e.hi.getD s.hi
    lo := e.lo.getD s.lo
    pc := s.npc
    npc := e.target.getD (s.npc + 4#32) }

/-- A step that succeeds with these effects. -/
def complete (s : State) (e : Effects) : StepOutcome := .next (s.commit e)

/-! ### Shared shapes of the instructions -/

/-- `x[r] <- v` and nothing else. -/
def writeReg (s : State) (r : Reg) (v : Word) : StepOutcome := complete s { gpr := some (r, v) }

/-- `hi <- p.1`, `lo <- p.2` and nothing else. -/
def writeHiLo (s : State) (p : Word × Word) : StepOutcome := complete s { hi := some p.1, lo := some p.2 }

/-- A branch: the target is recorded when the condition holds (42_branch_family.md R201). -/
def branchIf (s : State) (c : Bool) (target : Word) : StepOutcome :=
  complete s { target := if c then some target else none }

/-- A branch that links: `x[r] <- npc`, whether or not it is taken (42_branch_family.md R202). -/
def linkAndBranchIf (s : State) (r : Reg) (c : Bool) (target : Word) : StepOutcome :=
  complete s { gpr := some (r, s.npc), target := if c then some target else none }

/-- A load in the order of 45_load_store.md R261: alignment, the request for the containing word, the register
write of what is taken from it. -/
def load (s : State) (rt : Reg) (ea : Word) (align : Nat) (extract : Word → Word) : StepOutcome :=
  if misaligned ea align then raise .invalidAddress
  else
    match memReadWord s (wordAddress ea) with
    | .error f => raise f
    | .ok w => writeReg s rt (extract w)

/-- The write request of a store and the commit after it. -/
def storeWordAt (s : State) (a v : Word) : StepOutcome :=
  match memWriteWord s a v with
  | .error f => raise f
  | .ok t => complete t {}

/-- A byte or halfword store in the order of 45_load_store.md R261: alignment, the read of the containing word, the
write of it with the lane replaced (20_memory.md R68). -/
def storeLane (s : State) (ea : Word) (align : Nat) (replace : Word → Word) : StepOutcome :=
  if misaligned ea align then raise .invalidAddress
  else
    match memReadWord s (wordAddress ea) with
    | .error f => raise f
    | .ok w => storeWordAt s (wordAddress ea) (replace w)

/-- A word store (45_load_store.md R272). -/
def storeWord (s : State) (ea v : Word) : StepOutcome :=
  if misaligned ea 4 then raise .invalidAddress else storeWordAt s ea v

end Sys2Proof.Machine
end

