-- ==== Sys2Proof/Machine/BranchFamily.lean ====
section
/-! DEFINITION. The meanings of the branch family, opcode 1 (42_branch_family.md). -/

namespace Sys2Proof.Machine

/-- BLTZ (R203). -/
def execBltz (rs : Reg) (offset : Half) (s : State) : StepOutcome :=
  branchIf s (isNegative (s.reg rs)) (branchTarget s offset)

/-- BGEZ (R204). -/
def execBgez (rs : Reg) (offset : Half) (s : State) : StepOutcome :=
  branchIf s (isNonNegative (s.reg rs)) (branchTarget s offset)

/-- BLTZAL, linking into register 31 (R205). -/
def execBltzal (rs : Reg) (offset : Half) (s : State) : StepOutcome :=
  linkAndBranchIf s 31 (isNegative (s.reg rs)) (branchTarget s offset)

/-- BGEZAL, linking into register 31 (R206). -/
def execBgezal (rs : Reg) (offset : Half) (s : State) : StepOutcome :=
  linkAndBranchIf s 31 (isNonNegative (s.reg rs)) (branchTarget s offset)

end Sys2Proof.Machine
end

