-- ==== Sys2Proof/Machine/BranchJump.lean ====
section
/-! DEFINITION. The meanings of immediate branches and absolute jumps (44_branch_jump.md). -/

namespace Sys2Proof.Machine

/-- BEQ (R241). -/
def execBeq (rs rt : Reg) (offset : Half) (s : State) : StepOutcome :=
  branchIf s (s.reg rs == s.reg rt) (branchTarget s offset)

/-- BNE (R242). -/
def execBne (rs rt : Reg) (offset : Half) (s : State) : StepOutcome :=
  branchIf s (s.reg rs != s.reg rt) (branchTarget s offset)

/-- BLEZ (R243). -/
def execBlez (rs : Reg) (offset : Half) (s : State) : StepOutcome :=
  branchIf s (isNonPositive (s.reg rs)) (branchTarget s offset)

/-- BGTZ (R244). -/
def execBgtz (rs : Reg) (offset : Half) (s : State) : StepOutcome :=
  branchIf s (isPositive (s.reg rs)) (branchTarget s offset)

/-- J (R246). -/
def execJ (index : BitVec 26) (s : State) : StepOutcome := branchIf s true (jumpTarget s index)

/-- JAL, linking into register 31 (R247). -/
def execJal (index : BitVec 26) (s : State) : StepOutcome := linkAndBranchIf s 31 true (jumpTarget s index)

end Sys2Proof.Machine
end

