-- ==== Sys2Proof/Machine/ImmediateAlu.lean ====
section
/-! DEFINITION. The meanings of immediate arithmetic and logic (43_immediate_alu.md). -/

namespace Sys2Proof.Machine

/-- ADDI (R221). -/
def execAddi (rt rs : Reg) (imm : Half) (s : State) : StepOutcome :=
  if addOverflows (s.reg rs) (signImm imm) then raise .arithmeticOverflow
  else writeReg s rt (s.reg rs + signImm imm)

/-- ADDIU (R222). -/
def execAddiu (rt rs : Reg) (imm : Half) (s : State) : StepOutcome := writeReg s rt (s.reg rs + signImm imm)

/-- SLTI (R223). -/
def execSlti (rt rs : Reg) (imm : Half) (s : State) : StepOutcome :=
  writeReg s rt (boolWord (signedLess (s.reg rs) (signImm imm)))

/-- SLTIU, the immediate sign-extended first (R224). -/
def execSltiu (rt rs : Reg) (imm : Half) (s : State) : StepOutcome :=
  writeReg s rt (boolWord (unsignedLess (s.reg rs) (signImm imm)))

/-- ANDI (R225). -/
def execAndi (rt rs : Reg) (imm : Half) (s : State) : StepOutcome := writeReg s rt (s.reg rs &&& zeroImm imm)

/-- ORI (R226). -/
def execOri (rt rs : Reg) (imm : Half) (s : State) : StepOutcome := writeReg s rt (s.reg rs ||| zeroImm imm)

/-- XORI (R227). -/
def execXori (rt rs : Reg) (imm : Half) (s : State) : StepOutcome := writeReg s rt (s.reg rs ^^^ zeroImm imm)

/-- LUI (R228). -/
def execLui (rt : Reg) (imm : Half) (s : State) : StepOutcome := writeReg s rt (upperImm imm)

end Sys2Proof.Machine
end

