-- ==== Sys2Proof/Machine/LoadStore.lean ====
section
/-! DEFINITION. The meanings of loads and stores (45_load_store.md). -/

namespace Sys2Proof.Machine

/-! ### Loads -/

/-- LB (R263). -/
def execLb (rt base : Reg) (offset : Half) (s : State) : StepOutcome :=
  let ea := effectiveAddress s base offset
  load s rt ea 1 (fun w => (byteLane w (lane ea)).signExtend 32)

/-- LBU (R264). -/
def execLbu (rt base : Reg) (offset : Half) (s : State) : StepOutcome :=
  let ea := effectiveAddress s base offset
  load s rt ea 1 (fun w => (byteLane w (lane ea)).zeroExtend 32)

/-- LH (R265). -/
def execLh (rt base : Reg) (offset : Half) (s : State) : StepOutcome :=
  let ea := effectiveAddress s base offset
  load s rt ea 2 (fun w => (halfLane w (lane ea)).signExtend 32)

/-- LHU (R266). -/
def execLhu (rt base : Reg) (offset : Half) (s : State) : StepOutcome :=
  let ea := effectiveAddress s base offset
  load s rt ea 2 (fun w => (halfLane w (lane ea)).zeroExtend 32)

/-- LW (R267). -/
def execLw (rt base : Reg) (offset : Half) (s : State) : StepOutcome :=
  load s rt (effectiveAddress s base offset) 4 (fun w => w)

/-- LWL, which the alignment rule leaves only the whole word (R268). -/
def execLwl (rt base : Reg) (offset : Half) (s : State) : StepOutcome :=
  load s rt (effectiveAddress s base offset) 4 (fun w => w)

/-- LWR, in the implementation's reading `P_LWR_ALIGNED` (R269). -/
def execLwr (rt base : Reg) (offset : Half) (s : State) : StepOutcome :=
  load s rt (effectiveAddress s base offset) 4 (fun w => lwrResult Config.lwrAligned (s.reg rt) w)

/-! ### Stores -/

/-- SB (R270). -/
def execSb (rt base : Reg) (offset : Half) (s : State) : StepOutcome :=
  let ea := effectiveAddress s base offset
  storeLane s ea 1 (fun w => setByteLane w (lane ea) (lowByte (s.reg rt)))

/-- SH (R271). -/
def execSh (rt base : Reg) (offset : Half) (s : State) : StepOutcome :=
  let ea := effectiveAddress s base offset
  storeLane s ea 2 (fun w => setHalfLane w (lane ea) (lowHalf (s.reg rt)))

/-- SW (R272). -/
def execSw (rt base : Reg) (offset : Half) (s : State) : StepOutcome :=
  storeWord s (effectiveAddress s base offset) (s.reg rt)

end Sys2Proof.Machine
end

