-- ==== Sys2Proof/Machine/RegisterType.lean ====
section
/-! DEFINITION. The meanings of the register-type instructions, opcode 0 (41_register_type.md). -/

namespace Sys2Proof.Machine

/-! ### Arithmetic -/

/-- ADD (R155). -/
def execAdd (rd rs rt : Reg) (s : State) : StepOutcome :=
  if addOverflows (s.reg rs) (s.reg rt) then raise .arithmeticOverflow
  else writeReg s rd (s.reg rs + s.reg rt)

/-- ADDU (R156). -/
def execAddu (rd rs rt : Reg) (s : State) : StepOutcome := writeReg s rd (s.reg rs + s.reg rt)

/-- SUB (R157). -/
def execSub (rd rs rt : Reg) (s : State) : StepOutcome :=
  if subOverflows (s.reg rs) (s.reg rt) then raise .arithmeticOverflow
  else writeReg s rd (s.reg rs - s.reg rt)

/-- SUBU (R158). -/
def execSubu (rd rs rt : Reg) (s : State) : StepOutcome := writeReg s rd (s.reg rs - s.reg rt)

/-! ### Logic -/

/-- AND (R159). -/
def execAnd (rd rs rt : Reg) (s : State) : StepOutcome := writeReg s rd (s.reg rs &&& s.reg rt)

/-- OR (R160). -/
def execOr (rd rs rt : Reg) (s : State) : StepOutcome := writeReg s rd (s.reg rs ||| s.reg rt)

/-- XOR (R161). -/
def execXor (rd rs rt : Reg) (s : State) : StepOutcome := writeReg s rd (s.reg rs ^^^ s.reg rt)

/-! ### Comparison -/

/-- SLT (R162). -/
def execSlt (rd rs rt : Reg) (s : State) : StepOutcome := writeReg s rd (boolWord (signedLess (s.reg rs) (s.reg rt)))

/-- SLTU (R163). -/
def execSltu (rd rs rt : Reg) (s : State) : StepOutcome :=
  writeReg s rd (boolWord (unsignedLess (s.reg rs) (s.reg rt)))

/-! ### Shifts -/

/-- SLL (R164). -/
def execSll (rd rt : Reg) (sa : BitVec 5) (s : State) : StepOutcome := writeReg s rd (shiftLeft (s.reg rt) sa)

/-- SRL (R165). -/
def execSrl (rd rt : Reg) (sa : BitVec 5) (s : State) : StepOutcome := writeReg s rd (shiftRightLogical (s.reg rt) sa)

/-- SRA (R166). -/
def execSra (rd rt : Reg) (sa : BitVec 5) (s : State) : StepOutcome :=
  writeReg s rd (shiftRightArithmetic (s.reg rt) sa)

/-- SLLV (R167). -/
def execSllv (rd rt rs : Reg) (s : State) : StepOutcome :=
  writeReg s rd (shiftLeft (s.reg rt) (variableAmount (s.reg rs)))

/-- SRLV (R168). -/
def execSrlv (rd rt rs : Reg) (s : State) : StepOutcome :=
  writeReg s rd (shiftRightLogical (s.reg rt) (variableAmount (s.reg rs)))

/-- SRAV (R169). -/
def execSrav (rd rt rs : Reg) (s : State) : StepOutcome :=
  writeReg s rd (shiftRightArithmetic (s.reg rt) (variableAmount (s.reg rs)))

/-! ### Multiply and divide -/

/-- MULT (R170). -/
def execMult (rs rt : Reg) (s : State) : StepOutcome :=
  let p := signedProduct (s.reg rs) (s.reg rt)
  writeHiLo s (upperWord p, lowerWord p)

/-- MULTU (R171). -/
def execMultu (rs rt : Reg) (s : State) : StepOutcome :=
  let p := unsignedProduct (s.reg rs) (s.reg rt)
  writeHiLo s (upperWord p, lowerWord p)

/-- DIV (R172). A zero divisor is an invalid instruction (R153). -/
def execDiv (rs rt : Reg) (s : State) : StepOutcome :=
  if s.reg rt = 0#32 then raise .invalidInstruction
  else writeHiLo s (signedQuotient (s.reg rs) (s.reg rt))

/-- DIVU (R173). A zero divisor is an invalid instruction (R153). -/
def execDivu (rs rt : Reg) (s : State) : StepOutcome :=
  if s.reg rt = 0#32 then raise .invalidInstruction
  else writeHiLo s (unsignedQuotient (s.reg rs) (s.reg rt))

/-! ### Accumulator transfers -/

/-- MFHI (R174). -/
def execMfhi (rd : Reg) (s : State) : StepOutcome := writeReg s rd s.hi

/-- MFLO (R175). -/
def execMflo (rd : Reg) (s : State) : StepOutcome := writeReg s rd s.lo

/-- MTHI (R176). -/
def execMthi (rs : Reg) (s : State) : StepOutcome := complete s { hi := some (s.reg rs) }

/-- MTLO (R177). -/
def execMtlo (rs : Reg) (s : State) : StepOutcome := complete s { lo := some (s.reg rs) }

/-! ### Register-indirect jumps -/

/-- JR (R178). -/
def execJr (rs : Reg) (s : State) : StepOutcome := branchIf s true (s.reg rs)

/-- JALR, the target read before the link is written (R179). -/
def execJalr (rd rs : Reg) (s : State) : StepOutcome := linkAndBranchIf s rd true (s.reg rs)

end Sys2Proof.Machine
end

