-- ==== Sys2Proof/Machine/Fetch.lean ====
section
/-! DEFINITION. Fetching an instruction: the alignment check, the request for the word at `pc`, and decoding
(40_execution_core.md R122 to R124). -/

namespace Sys2Proof.Machine

/-- The bytes that stand at an address, in the order of memory. -/
def bytesAt (s : State) (a : Word) : List Byte :=
  [s.mem.get a, s.mem.get (a + 1#32), s.mem.get (a + 2#32), s.mem.get (a + 3#32)]

/-- Phases 0 to 2 of the step: the instruction at `pc`, or the fault that ends the step. -/
def fetch (s : State) : Except Fault Instr :=
  if misaligned s.pc 4 then .error .invalidAddress
  else
    match memReadWord s s.pc with
    | .error f => .error f
    | .ok w =>
      match decodeWord w with
      | .error _ => .error .invalidInstruction
      | .ok i => .ok i

/-- A word placed where the next fetch reads it. -/
def placeAtPc (s : State) (w : Word) : State := { s with mem := s.mem.setWord s.pc w }

end Sys2Proof.Machine
end

