-- ==== Sys2Proof/Machine/Step.lean ====
section
/-! DEFINITION. One step (40_execution_core.md R139), and the host's way to place the next instruction. -/

namespace Sys2Proof.Machine

/-- The step: fetch and decode, then the instruction's own operation, which ends with the commit. -/
def step (s : State) : Host.Outcome State Fault Refusal :=
  match fetch s with
  | .error f => raise f
  | .ok i => exec i s

/-- The state with an instruction word of `nbits` bits placed where the next step fetches it; the bits above `nbits`
are 0. Assumption 14. -/
def State.withFetchWord (s : State) (nbits w : Nat) : State := placeAtPc s (BitVec.ofNat 32 (w % 2 ^ nbits))

end Sys2Proof.Machine
end

