-- ==== Sys2Proof/Machine/Commands.lean ====
section
/-! DEFINITION. The host's commands (40_execution_core.md R120, R134 to R142) over a core that exists or not, the
status each returns (60_exceptions.md R300), and a run under the host's stop condition (R141). -/

namespace Sys2Proof.Machine

/-- The statuses of 60_exceptions.md R300. -/
inductive Status where
  | success
  | invalidHandle
  | invalidInstruction
  | invalidAddress
  | arithmeticOverflow
  | mem (status : MemStatus)
deriving DecidableEq, Repr

end Sys2Proof.Machine

namespace Sys2Proof

/-- `P_STATUS_CODES`, the number of each status (60_exceptions.md R300, 92_eei_decisions.md D25). A free value,
assumption 8. -/
opaque Config.statusCode : Machine.Status → Nat

end Sys2Proof

namespace Sys2Proof.Machine

/-- The number under which the host sees a status. -/
def Status.code (s : Status) : Nat := Config.statusCode s

/-- The status with which a fault is returned to the host (60_exceptions.md R301 to R304). -/
def Fault.status : Fault → Status
  | .invalidInstruction => .invalidInstruction
  | .invalidAddress => .invalidAddress
  | .arithmeticOverflow => .arithmeticOverflow
  | .memRead status => .mem status
  | .memWrite _ status => .mem status

/-- The `step` command on a core that exists: its status and the state the host finds after it
(40_execution_core.md R139). -/
def stepCommand (s : State) : Except Refusal (Status × State) :=
  match step s with
  | .next t => .ok (.success, t)
  | .fault f => .ok (f.status, s.afterFault f)
  | .refused r => .error r

/-- The `reset` command: the reset values, without touching the bound memory (40_execution_core.md R136,
20_memory.md R80). The memory keeps its counter of free values, assumption 5. -/
def State.resetCommand (s : State) : State := { State.reset with mem := s.mem }

/-- Construction bound to a memory (40_execution_core.md R142, 70_reset_and_hazards.md R340). The memory brings its
counter of free values with it, so that a core created over a memory that failed writes have spoiled takes none of
their values again; DESIGN CHOICE, assumption 5. -/
def State.create (m : Memory) : State := { State.reset with mem := m }

/-- The accessor's register write; a write to register 0 is discarded (40_execution_core.md R134). -/
def State.setReg (s : State) (r : Reg) (v : Word) : State :=
  if r = 0 then s else { s with gpr := s.gpr.set r v }

/-- The commands of 40_execution_core.md R120. Register indexes are as the host sends them. -/
inductive Command where
  | create (memory : Memory)
  | destroy
  | reset
  | step
  | getRegister (index : Nat)
  | setRegister (index : Nat) (value : Word)
  | getPc
  | setPc (value : Word)
  | getNpc
  | setNpc (value : Word)
  | getHi
  | setHi (value : Word)
  | getLo
  | setLo (value : Word)
  | setDebugLevel (level : Nat)
  | setDebugSink (sink : Nat)
deriving DecidableEq, Repr

/-- What a command returns: one status (R140), a value where it reads one, and the core after it, `none` when there is
no core. -/
structure Reply where
  status : Status
  value : Option Word
  core : Option State
deriving DecidableEq, Repr

/-- A command that succeeds, leaves the core in this state and reads nothing. -/
def Reply.done (s : State) : Reply := { status := .success, value := none, core := some s }

/-- A command that succeeds and reads a value. -/
def Reply.read (s : State) (v : Word) : Reply := { status := .success, value := some v, core := some s }

/-- A command on a core that exists. -/
def commandOnCore (c : Command) (s : State) : Except Refusal Reply :=
  match c with
  | .create m => .ok (Reply.done (State.create m))
  | .destroy => .ok { status := .success, value := none, core := none }
  | .reset => .ok (Reply.done s.resetCommand)
  | .step =>
    match stepCommand s with
    | .ok (status, t) => .ok { status := status, value := none, core := some t }
    | .error r => .error r
  | .getRegister i => if h : i < 32 then .ok (Reply.read s (s.reg ⟨i, h⟩)) else .error (.registerIndex i)
  | .setRegister i v => if h : i < 32 then .ok (Reply.done (s.setReg ⟨i, h⟩ v)) else .error (.registerIndex i)
  | .getPc => .ok (Reply.read s s.pc)
  | .setPc v => .ok (Reply.done { s with pc := v })
  | .getNpc => .ok (Reply.read s s.npc)
  | .setNpc v => .ok (Reply.done { s with npc := v })
  | .getHi => .ok (Reply.read s s.hi)
  | .setHi v => .ok (Reply.done { s with hi := v })
  | .getLo => .ok (Reply.read s s.lo)
  | .setLo v => .ok (Reply.done { s with lo := v })
  | .setDebugLevel _ => .ok (Reply.done s)
  | .setDebugSink _ => .ok (Reply.done s)

/-- A command on the host's handle: on an unconstructed or destroyed core every command but `create` returns
`InvalidHandle` and does nothing (40_execution_core.md R137, 60_exceptions.md R305). -/
def command (c : Command) (handle : Option State) : Except Refusal Reply :=
  match handle with
  | some s => commandOnCore c s
  | none =>
    match c with
    | .create m => .ok (Reply.done (State.create m))
    | _ => .ok { status := .invalidHandle, value := none, core := none }

/-- What a run of the host leaves: whether its stop condition held at the end, the status of its last step (`none`
when it made no step), and the state. -/
structure RunResult where
  ended : Bool
  last : Option Status
  state : State
deriving DecidableEq, Repr

/-- A run under the host's stop condition `P_END`, a predicate on the state and the last status (40_execution_core.md
R141), of at most so many steps; `last` is the status of the step before. DESIGN CHOICES, all of assumption 9: the
condition is asked before every step, the first one included, where there is no last status yet; the bound, which the
spec does not have; a run cut off by the bound reports the status of its last step as it is and says by `ended` whether
the condition holds there. -/
def runUntil (pEnd : State → Option Status → Bool) : Nat → Option Status → State → Except Refusal RunResult
  | 0, last, s => .ok { ended := pEnd s last, last := last, state := s }
  | n + 1, last, s =>
    if pEnd s last then .ok { ended := true, last := last, state := s }
    else
      match stepCommand s with
      | .error r => .error r
      | .ok (status, t) => runUntil pEnd n (some status) t

end Sys2Proof.Machine
end

