-- ==== Sys2Proof/Safety.lean ====
section
/-! DEFINITION. The terms that statements about the machine use: the invariant, frames, completions, and the control
transfers. -/

namespace Sys2Proof.Machine

/-- The invariant of every run: register 0 holds zero (10_state.md R31) and memory is in canonical form. -/
structure State.Inv (s : State) : Prop where
  reg0 : s.gpr[0] = 0#32
  memWf : s.mem.wf = true

/-- A safe run: `n` steps from `s`, none of which ends with a fault or a refusal. -/
def SafeFor : Nat → State → Prop
  | 0, _ => True
  | n + 1, s => ∃ t, step s = .next t ∧ SafeFor n t

/-- An exact integer result that a signed 32-bit word holds (41_register_type.md R151). -/
abbrev FitsSigned (n : Int) : Prop := -2147483648 ≤ n ∧ n ≤ 2147483647

/-- Every byte of memory reads in `t` as in `s`, and the store is the same store. -/
def SameMemory (s t : State) : Prop :=
  (∀ a, t.mem.get a = s.mem.get a) ∧ t.mem.size = s.mem.size ∧ t.mem.errors = s.mem.errors

/-- Every byte of memory outside the `n` bytes from `a` on reads in `t` as in `s`, and the store is the same store. -/
def SameMemoryBut (a : Word) (n : Nat) (s t : State) : Prop :=
  (∀ b, (∀ k < n, b ≠ a + BitVec.ofNat 32 k) → t.mem.get b = s.mem.get b) ∧
    t.mem.size = s.mem.size ∧ t.mem.errors = s.mem.errors

/-- Every general register reads in `t` as in `s`. -/
def SameRegs (s t : State) : Prop := ∀ r, t.reg r = s.reg r

/-- Every general register but `rd` reads in `t` as in `s`. -/
def SameRegsBut (rd : Reg) (s t : State) : Prop := ∀ r, r ≠ rd → t.reg r = s.reg r

/-- `hi` and `lo` are in `t` as in `s`. -/
def SameHiLo (s t : State) : Prop := t.hi = s.hi ∧ t.lo = s.lo

/-- The program counter pair advances without a control transfer (40_execution_core.md R126, R127). -/
def Advances (s t : State) : Prop := t.pc = s.npc ∧ t.npc = s.npc + 4#32

/-- The program counter pair advances with a control transfer to `target` (40_execution_core.md R126, R127). -/
def Transfers (target : Word) (s t : State) : Prop := t.pc = s.npc ∧ t.npc = target

/-- The instruction completes, `rd` reads `v` after it (0 when `rd` is register 0, whose write is discarded), and
everything else but the program counter pair, which advances, is unchanged. -/
def WritesReg (i : Instr) (s : State) (rd : Reg) (v : Word) : Prop :=
  ∃ t, exec i s = .next t ∧ t.reg rd = (if rd = 0 then 0#32 else v) ∧ SameRegsBut rd s t ∧ SameHiLo s t ∧
    SameMemory s t ∧ Advances s t

/-- The instruction completes with these values in `hi` and `lo`, and everything else but the program counter pair,
which advances, is unchanged. -/
def WritesHiLo (i : Instr) (s : State) (hi lo : Word) : Prop :=
  ∃ t, exec i s = .next t ∧ t.hi = hi ∧ t.lo = lo ∧ SameRegs s t ∧ SameMemory s t ∧ Advances s t

/-- The instruction completes as a branch or jump without a link: a transfer to `target` when `taken`, else a plain
advance; everything else is unchanged. -/
def Branches (i : Instr) (s : State) (taken : Prop) (target : Word) : Prop :=
  ∃ t, exec i s = .next t ∧ (taken → Transfers target s t) ∧ (¬taken → Advances s t) ∧ SameRegs s t ∧ SameHiLo s t ∧
    SameMemory s t

/-- The instruction completes as a branch or jump that links: register `rd` reads the old `npc` (0 when `rd` is
register 0), whether or not the transfer is taken; everything else is unchanged. -/
def BranchesAndLinks (i : Instr) (s : State) (rd : Reg) (taken : Prop) (target : Word) : Prop :=
  ∃ t, exec i s = .next t ∧ t.reg rd = (if rd = 0 then 0#32 else s.npc) ∧ (taken → Transfers target s t) ∧
    (¬taken → Advances s t) ∧ SameRegsBut rd s t ∧ SameHiLo s t ∧ SameMemory s t

/-- The instruction completes as a store of the bytes `bytes` from address `a` on: they are there after it, every
other byte of memory, every register, `hi` and `lo` are unchanged, and the program counter pair advances. -/
def Stores (i : Instr) (s : State) (a : Word) (bytes : List Byte) : Prop :=
  ∃ t, exec i s = .next t ∧ (∀ k (h : k < bytes.length), t.mem.get (a + BitVec.ofNat 32 k) = bytes[k]) ∧
    SameMemoryBut a bytes.length s t ∧ SameRegs s t ∧ SameHiLo s t ∧ Advances s t

/-- The bound memory answers this request with Ok. -/
abbrev Answers (s : State) (r : Request) : Prop := s.mem.answer r = none

/-- The control transfers (70_reset_and_hazards.md R346): the target an instruction records in this state, if it
records one. -/
def controlTarget (i : Instr) (s : State) : Option Word :=
  match i with
  | .jr rs => some (s.reg rs)
  | .jalr _ rs => some (s.reg rs)
  | .bltz rs offset => if (s.reg rs).toInt < 0 then some (branchTarget s offset) else none
  | .bgez rs offset => if 0 ≤ (s.reg rs).toInt then some (branchTarget s offset) else none
  | .bltzal rs offset => if (s.reg rs).toInt < 0 then some (branchTarget s offset) else none
  | .bgezal rs offset => if 0 ≤ (s.reg rs).toInt then some (branchTarget s offset) else none
  | .j index => some (jumpTarget s index)
  | .jal index => some (jumpTarget s index)
  | .beq rs rt offset => if s.reg rs = s.reg rt then some (branchTarget s offset) else none
  | .bne rs rt offset => if s.reg rs ≠ s.reg rt then some (branchTarget s offset) else none
  | .blez rs offset => if (s.reg rs).toInt ≤ 0 then some (branchTarget s offset) else none
  | .bgtz rs offset => if 0 < (s.reg rs).toInt then some (branchTarget s offset) else none
  | _ => none

/-- The instructions that may write `hi` or `lo` (10_state.md R42). -/
def writesHiLo (i : Instr) : Bool :=
  match i with
  | .mult _ _ | .multu _ _ | .div _ _ | .divu _ _ | .mthi _ | .mtlo _ => true
  | _ => false

/-- The instructions that may write memory (45_load_store.md R270 to R272). -/
def writesMemory (i : Instr) : Bool :=
  match i with
  | .sb _ _ _ | .sh _ _ _ | .sw _ _ _ => true
  | _ => false

/-- The effective address of a load or store in this state and the alignment it needs (20_memory.md R69), which for a
store is also the number of bytes it stores. -/
def memoryAccess (i : Instr) (s : State) : Option (Word × Nat) :=
  match i with
  | .lb _ base offset | .lbu _ base offset | .sb _ base offset => some (effectiveAddress s base offset, 1)
  | .lh _ base offset | .lhu _ base offset | .sh _ base offset => some (effectiveAddress s base offset, 2)
  | .lw _ base offset | .lwl _ base offset | .lwr _ base offset | .sw _ base offset =>
      some (effectiveAddress s base offset, 4)
  | _ => none

/-- The word that a store requests to write (45_load_store.md R270 to R272): the word read with its lane replaced, or
the register; `none` for every other instruction. -/
def writtenWord (i : Instr) (s : State) : Option Word :=
  match i with
  | .sb rt base offset =>
    let ea := effectiveAddress s base offset
    some (setByteLane (s.mem.word (wordAddress ea)) (lane ea) (lowByte (s.reg rt)))
  | .sh rt base offset =>
    let ea := effectiveAddress s base offset
    some (setHalfLane (s.mem.word (wordAddress ea)) (lane ea) (lowHalf (s.reg rt)))
  | .sw rt _ _ => some (s.reg rt)
  | _ => none

/-- The instructions that request a read of the word they access: every load, and SB and SH (45_load_store.md R261). -/
def readsMemory (i : Instr) : Bool :=
  match i with
  | .lb _ _ _ | .lbu _ _ _ | .lh _ _ _ | .lhu _ _ _ | .lw _ _ _ | .lwl _ _ _ | .lwr _ _ _ | .sb _ _ _
  | .sh _ _ _ => true
  | _ => false

/-- The general register an instruction names as its destination, with register 31 of the linking branches and JAL
(10_state.md R32); `none` where it writes no general register. -/
def destination (i : Instr) : Option Reg :=
  match i with
  | .add rd _ _ | .addu rd _ _ | .sub rd _ _ | .subu rd _ _ | .and rd _ _ | .or rd _ _ | .xor rd _ _ | .slt rd _ _
  | .sltu rd _ _ | .sll rd _ _ | .srl rd _ _ | .sra rd _ _ | .sllv rd _ _ | .srlv rd _ _ | .srav rd _ _ | .mfhi rd
  | .mflo rd | .jalr rd _ => some rd
  | .addi rt _ _ | .addiu rt _ _ | .slti rt _ _ | .sltiu rt _ _ | .andi rt _ _ | .ori rt _ _ | .xori rt _ _
  | .lui rt _ | .lb rt _ _ | .lbu rt _ _ | .lh rt _ _ | .lhu rt _ _ | .lw rt _ _ | .lwl rt _ _ | .lwr rt _ _ => some rt
  | .bltzal _ _ | .bgezal _ _ | .jal _ => some 31
  | _ => none

/-- The instructions whose target is a register's value, the only ones that can make `npc` misaligned
(10_state.md R40). -/
def jumpsToRegister (i : Instr) : Bool :=
  match i with
  | .jr _ | .jalr _ _ => true
  | _ => false

end Sys2Proof.Machine
end

