-- ==== Sys2Proof/Certificates/Slice0/Obligations.lean ====
section
/-! DEFINITION. The statements for the provers, one `def Obligations.<Name> : Prop` each, in the order of
OBLIGATIONS.json. A statement cites a rule as stated where the rule carries no mark of the spec's own decision; the
others say which decision of 92_eei_decisions.md they rest on. In all of them the advance of the program counter pair
is 40_execution_core.md R126 and R127, the latter with the spec's decision D1. -/

open Sys2Proof Sys2Proof.Machine

/-- For every instruction, with every operand at every value its field admits: decoding its word gives the instruction,
and decoding its bytes followed by any bytes gives the instruction and those bytes. (Rests on 30_encoding.md section
1, 30_encoding.md section 3.) -/
def Obligations.DecodeOfEncode : Prop :=
  (∀ i, decodeWord (encode i) = .ok i) ∧
    ∀ i rest, decodeBytes (encodeBytes i ++ rest) = .ok (i, rest)

/-- A word decodes to an instruction exactly when the word, with the bits that neither select the instruction nor belong
to one of its operands cleared, is the instruction's encoding: the other bits are ignored, whatever their value. That
unused fields are ignored is the spec's own decision D8 ("ignored, never faulting"). (Rests on 30_encoding.md section
4, 92_eei_decisions.md D8.) -/
def Obligations.DecodeReadsOnlyUsedBits : Prop :=
  ∀ w i, decodeWord w = .ok i ↔ w &&& i.usedMask = encode i

/-- For every field, every value that fits its width and every word, extracting the field from the word with that field
set to the value yields the value. (Rule R108.) -/
def Obligations.FieldValueRoundTrip : Prop :=
  ∀ (f : Field) (v : Nat) (w : Word), f.fits v = true → f.get (f.set v w) = v

/-- For every word, each field the decoder extracts is the number in the bit range of R91: op 31-26, rs 25-21, rt and the
branch sub-function 20-16, rd 15-11, sa 10-6, funct 5-0, imm 15-0, index 25-0, said by division and remainder. (Rule
R91.) -/
def Obligations.FieldsAreFixedBitRanges : Prop :=
  ∀ w : Word,
    (opField w).toNat = w.toNat / 2 ^ 26 ∧ Field.op.get w = w.toNat / 2 ^ 26 ∧
    (rsField w).val = w.toNat / 2 ^ 21 % 2 ^ 5 ∧ Field.rs.get w = w.toNat / 2 ^ 21 % 2 ^ 5 ∧
    (rtField w).val = w.toNat / 2 ^ 16 % 2 ^ 5 ∧ Field.rt.get w = w.toNat / 2 ^ 16 % 2 ^ 5 ∧
    (subField w).toNat = w.toNat / 2 ^ 16 % 2 ^ 5 ∧
    (rdField w).val = w.toNat / 2 ^ 11 % 2 ^ 5 ∧ Field.rd.get w = w.toNat / 2 ^ 11 % 2 ^ 5 ∧
    (saField w).toNat = w.toNat / 2 ^ 6 % 2 ^ 5 ∧ Field.sa.get w = w.toNat / 2 ^ 6 % 2 ^ 5 ∧
    (functField w).toNat = w.toNat % 2 ^ 6 ∧ Field.funct.get w = w.toNat % 2 ^ 6 ∧
    (immField w).toNat = w.toNat % 2 ^ 16 ∧ Field.imm.get w = w.toNat % 2 ^ 16 ∧
    (indexField w).toNat = w.toNat % 2 ^ 26 ∧ Field.index.get w = w.toNat % 2 ^ 26

/-- A word is refused by the decoder exactly when it matches none of the 53 rows of the opcode table; a word that decodes
matches the row of its instruction; and a step that fetches a word that matches no row ends with InvalidInstruction
and leaves the whole state as it was. That every other word is invalid is the spec's own decision D9. (Rests on
30_encoding.md section 4, 92_eei_decisions.md D9.) -/
def Obligations.UnmappedWordsAreInvalid : Prop :=
  (∀ w, (∃ e, decodeWord w = .error e) ↔ ∀ r ∈ opcodeRows, r.matchesWord w = false) ∧
    (∀ w i, decodeWord w = .ok i → i.row ∈ opcodeRows ∧ i.row.matchesWord w = true) ∧
    ∀ s, s.pc.toNat % 4 = 0 → Answers s (.read s.pc) →
      (∀ r ∈ opcodeRows, r.matchesWord (s.mem.word s.pc) = false) →
      step s = .fault .invalidInstruction ∧ stepCommand s = .ok (.invalidInstruction, s)

/-- The words E1 to E9 of the spec's test vectors, at least one of every family, decode to the instructions and operands
the spec lists, and the last one to none. (Rests on 95_test_vectors.md section 2 (E1 to E9), 30_encoding.md section
3.) -/
def Obligations.SpecWordsDecode : Prop :=
  decodeWord 0x0020F809#32 = .ok (.jalr 31 1) ∧ decodeWord 0x00221820#32 = .ok (.add 3 1 2) ∧
    decodeWord 0x000217C2#32 = .ok (.srl 2 2 31#5) ∧ decodeWord 0x04300003#32 = .ok (.bltzal 1 3#16) ∧
    decodeWord 0x2022FFFF#32 = .ok (.addi 2 1 0xFFFF#16) ∧ decodeWord 0x8C2B0001#32 = .ok (.lw 11 1 1#16) ∧
    decodeWord 0x0C000008#32 = .ok (.jal 8#26) ∧ decodeWord 0x00000000#32 = .ok (.sll 0 0 0#5) ∧
    decodeWord 0xFFFFFFFF#32 = .error (.noOpcode 0x3F#6)

/-- When pc is a multiple of 4, the memory answers the fetch, and the four bytes at pc decode to an instruction, the step
is that instruction's own operation on the same state; nothing is added around it. (Rests on 40_execution_core.md
section 2.) -/
def Obligations.StepRunsDecodedInstruction : Prop :=
  ∀ s i, s.pc.toNat % 4 = 0 → Answers s (.read s.pc) → decodeBytes (bytesAt s s.pc) = .ok (i, []) →
    fetch s = .ok i ∧ step s = exec i s

/-- At a multiple of 4: a read that is answered yields the four bytes with the byte at the address most significant; a
write that is answered puts the most significant byte at the address and changes no other byte; a request with a
status that is not Ok raises that status. The order of data words is the spec's own decision D5 ("data words and sub-
word lanes are big-endian, fixed"). (Rests on 20_memory.md section 2, 92_eei_decisions.md D5.) -/
def Obligations.WordRequestsAreBigEndian : Prop :=
  ∀ s a v, a.toNat % 4 = 0 →
    (Answers s (.read a) → ∃ w, memReadWord s a = .ok w ∧
      w.toNat = (s.mem.get a).toNat * 2 ^ 24 + (s.mem.get (a + 1#32)).toNat * 2 ^ 16 + (s.mem.get (a + 2#32)).toNat * 2 ^ 8 +
        (s.mem.get (a + 3#32)).toNat) ∧
    (∀ status, s.mem.answer (.read a) = some status → memReadWord s a = .error (.memRead status)) ∧
    (Answers s (.write a v) → ∃ t, memWriteWord s a v = .ok t ∧
      (t.mem.get a).toNat = v.toNat / 2 ^ 24 ∧ (t.mem.get (a + 1#32)).toNat = v.toNat / 2 ^ 16 % 2 ^ 8 ∧
      (t.mem.get (a + 2#32)).toNat = v.toNat / 2 ^ 8 % 2 ^ 8 ∧ (t.mem.get (a + 3#32)).toNat = v.toNat % 2 ^ 8 ∧
      SameMemoryBut a 4 s t) ∧
    (∀ status, s.mem.answer (.write a v) = some status → memWriteWord s a v = .error (.memWrite a status))

/-- From every state in which register 0 holds zero and memory is in canonical form (the model's convention, assumptions
4 and 17), a step that completes gives such a state. (Rests on 10_state.md section 1, 20_memory.md section 3,
notes/assumptions/17.md.) -/
def Obligations.EveryStepKeepsInvariant : Prop :=
  ∀ s t, s.Inv → step s = .next t → t.Inv

/-- From every state in which register 0 holds zero and memory is in canonical form (the model's convention, assumptions
4 and 17), every command of the host that leaves a core leaves such a state: a step that faults or whose memory write
failed, a write to register 0, reset, and construction over a canonical memory. That a host write to register 0 is
discarded is the spec's own decision D18; what a failed write leaves is its decision D15, in the form of assumption
5. (Rests on 10_state.md section 1, 40_execution_core.md section 1, notes/assumptions/17.md, 92_eei_decisions.md D15,
92_eei_decisions.md D18, notes/assumptions/5.md.) -/
def Obligations.EveryCommandKeepsInvariant : Prop :=
  ∀ c s r t, command c (some s) = .ok r → r.core = some t → s.Inv → (∀ m, c = .create m → m.wf = true) → t.Inv

/-- In the reset state register 0 holds zero and memory is in canonical form. (Rests on 10_state.md section 7,
notes/assumptions/17.md.) -/
def Obligations.ResetHasInvariant : Prop :=
  State.reset.Inv

/-- Over all instructions: a step that completes moves the old npc into pc, and npc takes the target when the instruction
is a taken branch or a jump, else the old npc plus 4 modulo 2^32. The value of npc without a target is the spec's own
decision D1 ("npc <- npc_entry + 4 (mod 2^32)"). (Rests on 40_execution_core.md section 2, 92_eei_decisions.md D1.) -/
def Obligations.ProgramCounterPairSequencing : Prop :=
  ∀ s t, step s = .next t →
    ∃ i, fetch s = .ok i ∧ t.pc = s.npc ∧ t.npc = (controlTarget i s).getD (s.npc + 4#32)

/-- Over all instructions: a completed step leaves every general register but its one destination unchanged, leaves hi
and lo unchanged unless it is MULT, MULTU, DIV, DIVU, MTHI or MTLO, which have no general destination, and leaves
memory unchanged unless it is SB, SH or SW, which leave every byte unchanged but the one, two or four from their
effective address on. (Rule R129.) -/
def Obligations.StepWritesOneRegisterAtMost : Prop :=
  ∀ s t i, fetch s = .ok i → step s = .next t →
    (∀ r, destination i ≠ some r → t.reg r = s.reg r) ∧ (writesHiLo i = false → SameHiLo s t) ∧
    (writesHiLo i = true → destination i = none) ∧ (writesMemory i = false → SameMemory s t) ∧
    (writesMemory i = true → ∃ ea n, memoryAccess i s = some (ea, n) ∧ SameMemoryBut ea n s t)

/-- Register 0 reads zero in every state; after every step that completes the register file holds zero there, whatever it
held before; and a host write to register 0 changes nothing. That the host's write is discarded at once is the spec's
own decision D18. (Rests on 10_state.md section 1, 92_eei_decisions.md D18.) -/
def Obligations.RegisterZeroIsHardwired : Prop :=
  (∀ s : State, s.reg 0 = 0#32) ∧ (∀ s t, step s = .next t → t.gpr[0] = 0#32 ∧ t.reg 0 = 0#32) ∧
    (∀ (s : State) v, s.setReg 0 v = s) ∧
    ∀ s v, command (.setRegister 0 v) (some s) = .ok { status := .success, value := none, core := some s }

/-- Whatever status other than success a step returns, every register, hi, lo, pc and npc is as before; memory is as
before too, unless the step is a store whose write request failed, and then every byte outside the word that contains
the store's own effective address is as before. That every fault leaves pc and npc is the spec's own decision D16,
what a failed write leaves its decision D15. (Rests on 40_execution_core.md section 2, 92_eei_decisions.md D15,
92_eei_decisions.md D16.) -/
def Obligations.FaultsCommitNothing : Prop :=
  ∀ s st t, stepCommand s = .ok (st, t) → st ≠ .success →
    t.gpr = s.gpr ∧ t.hi = s.hi ∧ t.lo = s.lo ∧ t.pc = s.pc ∧ t.npc = s.npc ∧
    (t.mem = s.mem ∨
      ∃ i ea n v status, fetch s = .ok i ∧ memoryAccess i s = some (ea, n) ∧ writtenWord i s = some v ∧
        s.mem.answer (.write (wordAddress ea) v) = some status ∧ st = .mem status ∧
        SameMemoryBut (wordAddress ea) 4 s t)

/-- After a step whose memory write failed, each of the four addressed bytes that lies in the store holds a fresh free
value (the model's form of the spec's unspecified value, assumption 5), and every other byte, every general register,
hi, lo, pc and npc are unchanged. The free values are constants without a body, so the statement holds for every
value. (Rests on 20_memory.md section 1, 92_eei_decisions.md D15, notes/assumptions/5.md.) -/
def Obligations.FailedWriteBytesAreFree : Prop :=
  ∀ s a status, a.toNat % 4 = 0 →
    ∃ t, s.afterFault (.memWrite a status) = t ∧
      (∀ k < 4, t.mem.get (a + BitVec.ofNat 32 k) =
        if (a + BitVec.ofNat 32 k).toNat < s.mem.size then Config.failedWriteByte (s.mem.freeIndex + k)
        else s.mem.get (a + BitVec.ofNat 32 k)) ∧
      SameMemoryBut a 4 s t ∧ t.mem.freeIndex = s.mem.freeIndex + 4 ∧
      t.gpr = s.gpr ∧ t.hi = s.hi ∧ t.lo = s.lo ∧ t.pc = s.pc ∧ t.npc = s.npc

/-- After a step that did not succeed and left every byte of memory as it was, another step returns the same status. That
a fault leaves the rest of the state is the spec's own decision D16; that a memory status comes again rests on the
model's choice of a memory whose answers do not change (assumption 2). (Rests on 40_execution_core.md section 2,
60_exceptions.md section 6, 92_eei_decisions.md D16, notes/assumptions/2.md.) -/
def Obligations.FaultsRepeat : Prop :=
  ∀ s st t, stepCommand s = .ok (st, t) → st ≠ .success → SameMemory s t →
    ∃ u, stepCommand t = .ok (st, u)

/-- Over all instructions: ArithmeticOverflow is raised exactly when the instruction is ADD, SUB or ADDI and the exact
signed result lies outside the range from -2^31 to 2^31 - 1. (Rule R303.) -/
def Obligations.OverflowFaultsExactlyFromSignedAddSub : Prop :=
  ∀ i s, exec i s = .fault .arithmeticOverflow ↔
    (∃ rd rs rt, i = .add rd rs rt ∧ ¬FitsSigned ((s.reg rs).toInt + (s.reg rt).toInt)) ∨
    (∃ rd rs rt, i = .sub rd rs rt ∧ ¬FitsSigned ((s.reg rs).toInt - (s.reg rt).toInt)) ∨
    (∃ rt rs imm, i = .addi rt rs imm ∧ ¬FitsSigned ((s.reg rs).toInt + imm.toInt))

/-- A step ends with InvalidInstruction exactly when the fetch succeeds and the word selects no instruction, or the
instruction is DIV or DIVU and its divisor is zero. (Rule R301.) -/
def Obligations.InvalidInstructionCauses : Prop :=
  ∀ s, step s = .fault .invalidInstruction ↔
    (s.pc.toNat % 4 = 0 ∧ Answers s (.read s.pc) ∧ ∃ e, decodeWord (s.mem.word s.pc) = .error e) ∨
    (∃ rs rt, fetch s = .ok (.div rs rt) ∧ s.reg rt = 0#32) ∨
    (∃ rs rt, fetch s = .ok (.divu rs rt) ∧ s.reg rt = 0#32)

/-- A step ends with InvalidAddress exactly when pc is not a multiple of 4, or the instruction is LH, LHU or SH with an
odd effective address, or LW, LWL, LWR or SW with an effective address that is not a multiple of 4. The alignment
check of the fetch is the spec's own decision D6. (Rests on 60_exceptions.md section 1, 92_eei_decisions.md D6.) -/
def Obligations.InvalidAddressCauses : Prop :=
  ∀ s, step s = .fault .invalidAddress ↔
    s.pc.toNat % 4 ≠ 0 ∨ ∃ i ea n, fetch s = .ok i ∧ memoryAccess i s = some (ea, n) ∧ ea.toNat % n ≠ 0

/-- A step ends with a read's memory status exactly when the fetch request fails with it, or the aligned instruction is a
load, SB or SH and its read request fails with it; with a write's status exactly when the aligned instruction is a
store whose earlier read, if it makes one, was answered and whose write request fails with it; and the status
returned is the memory's own. The alignment check of the fetch, the request of LH, LHU and SH for the containing word
and the order of the checks are the spec's own decisions D6, D30 and D31. (Rests on 60_exceptions.md section 1,
92_eei_decisions.md D6, 92_eei_decisions.md D30, 92_eei_decisions.md D31.) -/
def Obligations.MemoryStatusCauses : Prop :=
  ∀ s status,
    (step s = .fault (.memRead status) ↔
      (s.pc.toNat % 4 = 0 ∧ s.mem.answer (.read s.pc) = some status) ∨
      ∃ i ea n, fetch s = .ok i ∧ memoryAccess i s = some (ea, n) ∧ readsMemory i = true ∧ ea.toNat % n = 0 ∧
        s.mem.answer (.read (wordAddress ea)) = some status) ∧
    (∀ a, step s = .fault (.memWrite a status) ↔
      ∃ i ea n, fetch s = .ok i ∧ memoryAccess i s = some (ea, n) ∧ ea.toNat % n = 0 ∧ a = wordAddress ea ∧
        (readsMemory i = true → Answers s (.read a)) ∧
        ∃ v, writtenWord i s = some v ∧ s.mem.answer (.write a v) = some status) ∧
    ∀ st t, (step s = .fault (.memRead status) ∨ ∃ a, step s = .fault (.memWrite a status)) →
      stepCommand s = .ok (st, t) → st = .mem status

/-- Every instruction of the table has a meaning in every state: it answers a next state or one of the spec's own faults,
never a refusal; and the step command always returns a status and a state. (Rests on 30_encoding.md section 3,
40_execution_core.md section 2, 93_implementation_defined.md section 1.) -/
def Obligations.NoStepIsRefused : Prop :=
  (∀ i s r, exec i s ≠ .refused r) ∧ (∀ s r, step s ≠ .refused r) ∧
    ∀ s, ∃ st t, stepCommand s = .ok (st, t)

/-- Over all instructions: from an aligned npc, a completed step that is not JR or JALR leaves both pc and npc multiples
of 4. That npc without a target is npc plus 4, and the word scaling of jump targets, are the spec's own decisions D1
and D4. (Rests on 10_state.md section 3, 42_branch_family.md section 1, 44_branch_jump.md section 1,
92_eei_decisions.md D1, 92_eei_decisions.md D4.) -/
def Obligations.AddressesStayAlignedUnlessRegisterJump : Prop :=
  ∀ s t i, fetch s = .ok i → step s = .next t → jumpsToRegister i = false →
    s.npc.toNat % 4 = 0 → t.pc.toNat % 4 = 0 ∧ t.npc.toNat % 4 = 0

/-- For two steps in a row: the second step runs the instruction at the first one's npc, taken or not, and only after it
does pc hold the first one's target, or the address after the delay slot when no target was recorded; in sequential
flow from A these are A + 4, then the target or A + 8. The spec derives the rule from R126 and R127, and npc without
a target is its own decision D1. (Rests on 40_execution_core.md section 2, 92_eei_decisions.md D1.) -/
def Obligations.DelaySlotAlwaysExecutes : Prop :=
  ∀ s u v i, fetch s = .ok i → step s = .next u → step u = .next v →
    u.pc = s.npc ∧ v.pc = (controlTarget i s).getD (s.npc + 4#32) ∧
    (s.npc = s.pc + 4#32 → u.pc = s.pc + 4#32 ∧ v.pc = (controlTarget i s).getD (s.pc + 8#32))

/-- When SW stores a word that decodes to an instruction at the address of the next instruction, the very next step runs
that instruction: no fence or delay is needed. That SW stores in the byte order of the fetch is the spec's own
decision D5. (Rests on 20_memory.md section 5, 70_reset_and_hazards.md section 3, 92_eei_decisions.md D5.) -/
def Obligations.StoredInstructionIsFetched : Prop :=
  ∀ s rt base offset i, s.npc.toNat % 4 = 0 → effectiveAddress s base offset = s.npc →
    Answers s (.write s.npc (s.reg rt)) → Answers s (.read s.npc) → decodeWord (s.reg rt) = .ok i →
    ∃ u, exec (.sw rt base offset) s = .next u ∧ step u = exec i u

/-- SW followed by LW of the same aligned address completes and loads the value stored. (Rests on 45_load_store.md
section 2, 45_load_store.md section 3, 95_test_vectors.md S5.) -/
def Obligations.StoreThenLoadWord : Prop :=
  ∀ s rt rd base offset, (effectiveAddress s base offset).toNat % 4 = 0 →
    Answers s (.write (effectiveAddress s base offset) (s.reg rt)) → Answers s (.read (effectiveAddress s base offset)) →
    ∃ u v, exec (.sw rt base offset) s = .next u ∧ exec (.lw rd base offset) u = .next v ∧
      v.reg rd = if rd = 0 then 0#32 else s.reg rt

/-- The byte at an address is bits 31-8k to 24-8k of the containing word, the halfword at an even address bits 31-8k to
16-8k; and a word stored by SW and read back by LB k bytes further on, k from 0 to 3, yields byte k counted from the
most significant end. The order of data is the spec's own decision D5. (Rests on 20_memory.md section 2,
92_eei_decisions.md D5.) -/
def Obligations.LanesAreBigEndian : Prop :=
  (∀ (m : Memory) ea, m.get ea = byteLane (m.word (wordAddress ea)) (ea.toNat % 4)) ∧
    (∀ (m : Memory) ea, ea.toNat % 2 = 0 →
      m.get ea ++ m.get (ea + 1#32) = halfLane (m.word (wordAddress ea)) (ea.toNat % 4)) ∧
    ∀ s rt rd base offset offset' k, k < 4 → (effectiveAddress s base offset).toNat % 4 = 0 →
      effectiveAddress s base offset' = effectiveAddress s base offset + BitVec.ofNat 32 k →
      Answers s (.write (effectiveAddress s base offset) (s.reg rt)) → Answers s (.read (effectiveAddress s base offset)) →
      ∃ u v, exec (.sw rt base offset) s = .next u ∧ exec (.lb rd base offset') u = .next v ∧
        v.reg rd = if rd = 0 then 0#32 else ((s.reg rt).extractLsb' (24 - 8 * k) 8).signExtend 32

/-- ADD completes with the exact signed sum in rd when the sum is in the signed range and changes nothing else but the
advancing program counter pair; when the sum is out of range it raises ArithmeticOverflow, also for rd = 0. (Rule
R155.) -/
def Obligations.AddResultOrOverflow : Prop :=
  ∀ s rd rs rt,
    (FitsSigned ((s.reg rs).toInt + (s.reg rt).toInt) →
      WritesReg (.add rd rs rt) s rd (BitVec.ofInt 32 ((s.reg rs).toInt + (s.reg rt).toInt))) ∧
    (¬FitsSigned ((s.reg rs).toInt + (s.reg rt).toInt) → exec (.add rd rs rt) s = .fault .arithmeticOverflow)

/-- SUB completes with the exact signed difference in rd when it is in the signed range and changes nothing else but the
advancing program counter pair; when it is out of range it raises ArithmeticOverflow. (Rule R157.) -/
def Obligations.SubResultOrOverflow : Prop :=
  ∀ s rd rs rt,
    (FitsSigned ((s.reg rs).toInt - (s.reg rt).toInt) →
      WritesReg (.sub rd rs rt) s rd (BitVec.ofInt 32 ((s.reg rs).toInt - (s.reg rt).toInt))) ∧
    (¬FitsSigned ((s.reg rs).toInt - (s.reg rt).toInt) → exec (.sub rd rs rt) s = .fault .arithmeticOverflow)

/-- In every state ADDU and SUBU complete with the sum and the difference modulo 2^32 in rd, and change nothing else but
the advancing program counter pair. (Rule R156, R158.) -/
def Obligations.UnsignedAddAndSubWrap : Prop :=
  ∀ s rd rs rt,
    WritesReg (.addu rd rs rt) s rd (BitVec.ofNat 32 ((s.reg rs).toNat + (s.reg rt).toNat)) ∧
    WritesReg (.subu rd rs rt) s rd (BitVec.ofInt 32 ((s.reg rs).toNat - (s.reg rt).toNat : Int))

/-- In every state AND, OR and XOR complete with the bitwise and, or, exclusive or in rd, and change nothing else but the
advancing program counter pair. (Rule R159, R160, R161.) -/
def Obligations.LogicResults : Prop :=
  ∀ s rd rs rt,
    WritesReg (.and rd rs rt) s rd (s.reg rs &&& s.reg rt) ∧
    WritesReg (.or rd rs rt) s rd (s.reg rs ||| s.reg rt) ∧
    WritesReg (.xor rd rs rt) s rd (s.reg rs ^^^ s.reg rt)

/-- In every state SLT and SLTU complete with 1 in rd when rs is less than rt, signed and unsigned, else 0, and change
nothing else but the advancing program counter pair. (Rule R162, R163.) -/
def Obligations.ComparisonResults : Prop :=
  ∀ s rd rs rt,
    WritesReg (.slt rd rs rt) s rd (if (s.reg rs).toInt < (s.reg rt).toInt then 1#32 else 0#32) ∧
    WritesReg (.sltu rd rs rt) s rd (if (s.reg rs).toNat < (s.reg rt).toNat then 1#32 else 0#32)

/-- In every state SLL, SRL and SRA complete with rt times 2^sa modulo 2^32, the unsigned quotient by 2^sa, and the
signed quotient by 2^sa rounded down, in rd, and change nothing else but the advancing program counter pair. (Rule
R164, R165, R166.) -/
def Obligations.FixedShiftResults : Prop :=
  ∀ s rd rt sa,
    WritesReg (.sll rd rt sa) s rd (BitVec.ofNat 32 ((s.reg rt).toNat * 2 ^ sa.toNat)) ∧
    WritesReg (.srl rd rt sa) s rd (BitVec.ofNat 32 ((s.reg rt).toNat / 2 ^ sa.toNat)) ∧
    WritesReg (.sra rd rt sa) s rd (BitVec.ofInt 32 ((s.reg rt).toInt / 2 ^ sa.toNat))

/-- In every state the variable shifts complete with the shift of rt by rs modulo 32, in rd, and change nothing else but
the advancing program counter pair. (Rule R167, R168, R169.) -/
def Obligations.VariableShiftResults : Prop :=
  ∀ s rd rt rs,
    WritesReg (.sllv rd rt rs) s rd (BitVec.ofNat 32 ((s.reg rt).toNat * 2 ^ ((s.reg rs).toNat % 32))) ∧
    WritesReg (.srlv rd rt rs) s rd (BitVec.ofNat 32 ((s.reg rt).toNat / 2 ^ ((s.reg rs).toNat % 32))) ∧
    WritesReg (.srav rd rt rs) s rd (BitVec.ofInt 32 ((s.reg rt).toInt / 2 ^ ((s.reg rs).toNat % 32)))

/-- In every state MULT and MULTU complete with the upper and lower halves of the 64-bit form of the exact signed and
unsigned product in hi and lo; the product always fits in 64 bits; nothing else changes but the advancing program
counter pair. (Rule R152, R170, R171.) -/
def Obligations.ProductsAreExact : Prop :=
  ∀ s rs rt,
    WritesHiLo (.mult rs rt) s ((BitVec.ofInt 64 ((s.reg rs).toInt * (s.reg rt).toInt)).extractLsb' 32 32)
      ((BitVec.ofInt 64 ((s.reg rs).toInt * (s.reg rt).toInt)).extractLsb' 0 32) ∧
    WritesHiLo (.multu rs rt) s ((BitVec.ofNat 64 ((s.reg rs).toNat * (s.reg rt).toNat)).extractLsb' 32 32)
      ((BitVec.ofNat 64 ((s.reg rs).toNat * (s.reg rt).toNat)).extractLsb' 0 32) ∧
    (BitVec.ofInt 64 ((s.reg rs).toInt * (s.reg rt).toInt)).toInt = (s.reg rs).toInt * (s.reg rt).toInt ∧
    (BitVec.ofNat 64 ((s.reg rs).toNat * (s.reg rt).toNat)).toNat = (s.reg rs).toNat * (s.reg rt).toNat

/-- DIV by zero raises InvalidInstruction. Otherwise it completes: for 0x80000000 by 0xFFFFFFFF with the free pair
P_DIV_MIN_NEG1 (a constant without a body, assumption 6, so the statement holds for every value); else with lo the
quotient q and hi the remainder r, where dividend = q * divisor + r, r smaller in magnitude than the divisor and zero
or of the dividend's sign. Nothing else changes but the advancing program counter pair. Truncation and the sign of
the remainder are the spec's own decision D11, the free pair its decision D10. (Rests on 41_register_type.md section
6, 92_eei_decisions.md D10, 92_eei_decisions.md D11, notes/assumptions/6.md.) -/
def Obligations.SignedDivision : Prop :=
  ∀ s rs rt,
    (s.reg rt = 0#32 → exec (.div rs rt) s = .fault .invalidInstruction) ∧
    (s.reg rs = 0x80000000#32 → s.reg rt = 0xFFFFFFFF#32 →
      WritesHiLo (.div rs rt) s Config.divMinNeg1.1 Config.divMinNeg1.2) ∧
    (s.reg rt ≠ 0#32 → ¬(s.reg rs = 0x80000000#32 ∧ s.reg rt = 0xFFFFFFFF#32) →
      ∃ q r : Int, (s.reg rs).toInt = q * (s.reg rt).toInt + r ∧ r.natAbs < (s.reg rt).toInt.natAbs ∧
        (r = 0 ∨ (r < 0 ↔ (s.reg rs).toInt < 0)) ∧ FitsSigned q ∧
        WritesHiLo (.div rs rt) s (BitVec.ofInt 32 r) (BitVec.ofInt 32 q))

/-- DIVU by zero raises InvalidInstruction. Otherwise it completes with the unsigned quotient in lo and the remainder in
hi, and nothing else changes but the advancing program counter pair. (Rule R173.) -/
def Obligations.UnsignedDivision : Prop :=
  ∀ s rs rt,
    (s.reg rt = 0#32 → exec (.divu rs rt) s = .fault .invalidInstruction) ∧
    (s.reg rt ≠ 0#32 → ∃ q r : Nat, (s.reg rs).toNat = q * (s.reg rt).toNat + r ∧ r < (s.reg rt).toNat ∧
      q < 2 ^ 32 ∧ WritesHiLo (.divu rs rt) s (BitVec.ofNat 32 r) (BitVec.ofNat 32 q))

/-- In every state MFHI and MFLO complete with hi and lo in rd; MTHI and MTLO complete with rs in hi and lo, the other
half unchanged; nothing else changes but the advancing program counter pair. (Rule R174, R175, R176, R177.) -/
def Obligations.AccumulatorTransfers : Prop :=
  ∀ s rd rs,
    WritesReg (.mfhi rd) s rd s.hi ∧ WritesReg (.mflo rd) s rd s.lo ∧
    WritesHiLo (.mthi rs) s (s.reg rs) s.lo ∧ WritesHiLo (.mtlo rs) s s.hi (s.reg rs)

/-- In every state JR completes with the value of rs recorded as the target; JALR does the same with the value rs had at
the start and writes the npc at entry into rd, also when rd is rs, and discards it when rd is 0. No alignment is
checked, and nothing else changes. The link value, the unchecked target and the moment of the read are the spec's own
decisions D2, D7 and D21. (Rests on 41_register_type.md section 8, 92_eei_decisions.md D2, 92_eei_decisions.md D7,
92_eei_decisions.md D21.) -/
def Obligations.RegisterJumps : Prop :=
  ∀ s rd rs,
    Branches (.jr rs) s True (s.reg rs) ∧ BranchesAndLinks (.jalr rd rs) s rd True (s.reg rs)

/-- In every state BLTZ and BGEZ complete: the target, npc plus four times the signed offset, is recorded exactly when
the signed value of rs is below zero, respectively not below; nothing else changes. (Rule R203, R204.) -/
def Obligations.SignBranches : Prop :=
  ∀ s rs offset,
    Branches (.bltz rs offset) s ((s.reg rs).toInt < 0) (s.npc + BitVec.ofInt 32 (4 * offset.toInt)) ∧
    Branches (.bgez rs offset) s (0 ≤ (s.reg rs).toInt) (s.npc + BitVec.ofInt 32 (4 * offset.toInt))

/-- In every state BLTZAL and BGEZAL complete: register 31 takes the npc at entry whether or not the branch is taken, the
test reads the value rs had at the start (also for rs = 31), and the target is recorded exactly when the signed test
holds; nothing else changes. The link of a branch not taken and the moment of the read are the spec's own decisions
D3 and D21. (Rests on 42_branch_family.md section 2, 92_eei_decisions.md D3, 92_eei_decisions.md D21.) -/
def Obligations.LinkingSignBranches : Prop :=
  ∀ s rs offset,
    BranchesAndLinks (.bltzal rs offset) s 31 ((s.reg rs).toInt < 0) (s.npc + BitVec.ofInt 32 (4 * offset.toInt)) ∧
    BranchesAndLinks (.bgezal rs offset) s 31 (0 ≤ (s.reg rs).toInt) (s.npc + BitVec.ofInt 32 (4 * offset.toInt))

/-- In every state BEQ and BNE complete: the target, npc plus four times the signed offset, is recorded exactly when the
registers are equal, respectively unequal; nothing else changes. (Rule R241, R242.) -/
def Obligations.EqualityBranches : Prop :=
  ∀ s rs rt offset,
    Branches (.beq rs rt offset) s (s.reg rs = s.reg rt) (s.npc + BitVec.ofInt 32 (4 * offset.toInt)) ∧
    Branches (.bne rs rt offset) s (s.reg rs ≠ s.reg rt) (s.npc + BitVec.ofInt 32 (4 * offset.toInt))

/-- In every state BLEZ and BGTZ complete: the target is recorded exactly when the signed value of rs is at most zero,
respectively above zero; nothing else changes. (Rule R243, R244.) -/
def Obligations.ZeroBranches : Prop :=
  ∀ s rs offset,
    Branches (.blez rs offset) s ((s.reg rs).toInt ≤ 0) (s.npc + BitVec.ofInt 32 (4 * offset.toInt)) ∧
    Branches (.bgtz rs offset) s (0 < (s.reg rs).toInt) (s.npc + BitVec.ofInt 32 (4 * offset.toInt))

/-- In every state J and JAL complete with the target whose upper four bits are those of pc and whose lower bits are four
times the index; JAL writes the npc at entry into register 31; nothing else changes. The target's assembly and the
link value are the spec's own decisions D4 and D2. (Rests on 44_branch_jump.md section 1, 92_eei_decisions.md D2,
92_eei_decisions.md D4.) -/
def Obligations.AbsoluteJumps : Prop :=
  ∀ s index,
    Branches (.j index) s True (BitVec.ofNat 32 (s.pc.toNat / 2 ^ 28 * 2 ^ 28 + 4 * index.toNat)) ∧
    BranchesAndLinks (.jal index) s 31 True (BitVec.ofNat 32 (s.pc.toNat / 2 ^ 28 * 2 ^ 28 + 4 * index.toNat))

/-- The effective address is base plus signed offset modulo 2^32, the branch target npc plus four times the signed offset
modulo 2^32, the jump target the region of pc plus four times the index, and the word address the effective address
rounded down to a multiple of 4. The jump target's assembly and the wrap modulo 2^32 are the spec's own decisions D4
and D32. (Rests on 20_memory.md section 3, 42_branch_family.md section 1, 44_branch_jump.md section 1,
45_load_store.md section 1, 92_eei_decisions.md D4, 92_eei_decisions.md D32.) -/
def Obligations.AddressArithmetic : Prop :=
  ∀ s base offset index,
    effectiveAddress s base offset = BitVec.ofInt 32 ((s.reg base).toNat + offset.toInt) ∧
    branchTarget s offset = BitVec.ofInt 32 (s.npc.toNat + 4 * offset.toInt) ∧
    (jumpTarget s index).toNat = s.pc.toNat / 2 ^ 28 * 2 ^ 28 + 4 * index.toNat ∧
    (wordAddress (effectiveAddress s base offset)).toNat = (effectiveAddress s base offset).toNat / 4 * 4

/-- ADDI completes with the exact sum of rs and the signed immediate in rt when it is in the signed range and changes
nothing else but the advancing program counter pair; when it is out of range it raises ArithmeticOverflow, also for
rt = 0. (Rule R221.) -/
def Obligations.AddiResultOrOverflow : Prop :=
  ∀ s rt rs imm,
    (FitsSigned ((s.reg rs).toInt + imm.toInt) →
      WritesReg (.addi rt rs imm) s rt (BitVec.ofInt 32 ((s.reg rs).toInt + imm.toInt))) ∧
    (¬FitsSigned ((s.reg rs).toInt + imm.toInt) → exec (.addi rt rs imm) s = .fault .arithmeticOverflow)

/-- In every state ADDIU completes with the sum modulo 2^32, SLTI with the signed comparison, SLTIU with the unsigned
comparison against the sign-extended immediate, in rt, and nothing else changes but the advancing program counter
pair. (Rule R222, R223, R224.) -/
def Obligations.ImmediateArithmeticResults : Prop :=
  ∀ s rt rs imm,
    WritesReg (.addiu rt rs imm) s rt (BitVec.ofInt 32 ((s.reg rs).toNat + imm.toInt)) ∧
    WritesReg (.slti rt rs imm) s rt (if (s.reg rs).toInt < imm.toInt then 1#32 else 0#32) ∧
    WritesReg (.sltiu rt rs imm) s rt
      (if (s.reg rs).toNat < (if imm.toInt < 0 then imm.toInt + 4294967296 else imm.toInt).toNat then 1#32 else 0#32)

/-- In every state ANDI, ORI and XORI complete with the bitwise result against the zero-extended immediate, and LUI with
the immediate times 2^16, in rt; nothing else changes but the advancing program counter pair. (Rule R225, R226, R227,
R228.) -/
def Obligations.ImmediateLogicResults : Prop :=
  ∀ s rt rs imm,
    WritesReg (.andi rt rs imm) s rt (s.reg rs &&& BitVec.ofNat 32 imm.toNat) ∧
    WritesReg (.ori rt rs imm) s rt (s.reg rs ||| BitVec.ofNat 32 imm.toNat) ∧
    WritesReg (.xori rt rs imm) s rt (s.reg rs ^^^ BitVec.ofNat 32 imm.toNat) ∧
    WritesReg (.lui rt imm) s rt (BitVec.ofNat 32 (imm.toNat * 2 ^ 16))

/-- At any address whose containing word the memory answers, LB and LBU complete with the byte at the effective address
in rt, sign- and zero-extended, and change nothing else but the advancing program counter pair; a failing request
raises the memory's status. There is no alignment fault. (Rule R263, R264.) -/
def Obligations.LoadByteResults : Prop :=
  ∀ s rt base offset,
    (Answers s (.read (wordAddress (effectiveAddress s base offset))) →
      WritesReg (.lb rt base offset) s rt ((s.mem.get (effectiveAddress s base offset)).signExtend 32) ∧
      WritesReg (.lbu rt base offset) s rt ((s.mem.get (effectiveAddress s base offset)).zeroExtend 32)) ∧
    (∀ status, s.mem.answer (.read (wordAddress (effectiveAddress s base offset))) = some status →
      exec (.lb rt base offset) s = .fault (.memRead status) ∧ exec (.lbu rt base offset) s = .fault (.memRead status))

/-- LH and LHU raise InvalidAddress at an odd effective address. At an even one whose word the memory answers they
complete with the two bytes there, the first the more significant, sign- and zero-extended, in rt, and change nothing
else but the advancing program counter pair; a failing request raises the memory's status. The byte order and the
request for the containing word are the spec's own decisions D5 and D30. (Rests on 45_load_store.md section 2,
92_eei_decisions.md D5, 92_eei_decisions.md D30.) -/
def Obligations.LoadHalfResults : Prop :=
  ∀ s rt base offset,
    ((effectiveAddress s base offset).toNat % 2 ≠ 0 →
      exec (.lh rt base offset) s = .fault .invalidAddress ∧ exec (.lhu rt base offset) s = .fault .invalidAddress) ∧
    ((effectiveAddress s base offset).toNat % 2 = 0 →
      (Answers s (.read (wordAddress (effectiveAddress s base offset))) →
        WritesReg (.lh rt base offset) s rt ((s.mem.get (effectiveAddress s base offset) ++
          s.mem.get (effectiveAddress s base offset + 1#32)).signExtend 32) ∧
        WritesReg (.lhu rt base offset) s rt ((s.mem.get (effectiveAddress s base offset) ++
          s.mem.get (effectiveAddress s base offset + 1#32)).zeroExtend 32)) ∧
      (∀ status, s.mem.answer (.read (wordAddress (effectiveAddress s base offset))) = some status →
        exec (.lh rt base offset) s = .fault (.memRead status) ∧
        exec (.lhu rt base offset) s = .fault (.memRead status)))

/-- LW and LWL raise InvalidAddress at an effective address that is not a multiple of 4. At one that is and that the
memory answers they complete with the big-endian word there in rt, and change nothing else but the advancing program
counter pair; a failing request raises the memory's status. The byte order and LWL are the spec's own decisions D5
and D13. (Rests on 45_load_store.md section 2, 92_eei_decisions.md D5, 92_eei_decisions.md D13.) -/
def Obligations.LoadWordResults : Prop :=
  ∀ s rt base offset,
    ((effectiveAddress s base offset).toNat % 4 ≠ 0 →
      exec (.lw rt base offset) s = .fault .invalidAddress ∧ exec (.lwl rt base offset) s = .fault .invalidAddress) ∧
    ((effectiveAddress s base offset).toNat % 4 = 0 →
      (Answers s (.read (effectiveAddress s base offset)) →
        WritesReg (.lw rt base offset) s rt (s.mem.word (effectiveAddress s base offset)) ∧
        WritesReg (.lwl rt base offset) s rt (s.mem.word (effectiveAddress s base offset))) ∧
      (∀ status, s.mem.answer (.read (effectiveAddress s base offset)) = some status →
        exec (.lw rt base offset) s = .fault (.memRead status) ∧
        exec (.lwl rt base offset) s = .fault (.memRead status)))

/-- LWR raises InvalidAddress at an effective address that is not a multiple of 4. At one that is and that the memory
answers it completes: with the byte at the address merged into the low byte of rt, or with the whole word, as the
parameter P_LWR_ALIGNED says (a constant without a body, assumption 7, so the statement holds for both); nothing else
changes but the advancing program counter pair; a failing request raises the memory's status. The two readings are
the spec's open point D12, the byte order its own decision D5. (Rests on 45_load_store.md section 2,
92_eei_decisions.md D5, 92_eei_decisions.md D12, notes/assumptions/7.md.) -/
def Obligations.LoadWordRightResult : Prop :=
  ∀ s rt base offset,
    ((effectiveAddress s base offset).toNat % 4 ≠ 0 → exec (.lwr rt base offset) s = .fault .invalidAddress) ∧
    ((effectiveAddress s base offset).toNat % 4 = 0 →
      (Answers s (.read (effectiveAddress s base offset)) →
        WritesReg (.lwr rt base offset) s rt
          (match Config.lwrAligned with
            | .mergeLowByte =>
              BitVec.ofNat 32 ((s.reg rt).toNat / 256 * 256 + (s.mem.get (effectiveAddress s base offset)).toNat)
            | .fullWord => s.mem.word (effectiveAddress s base offset))) ∧
      (∀ status, s.mem.answer (.read (effectiveAddress s base offset)) = some status →
        exec (.lwr rt base offset) s = .fault (.memRead status)))

/-- At any address whose containing word the memory answers, SB requests the write of the word just read with the byte at
the effective address replaced by the low byte of rt; when the memory answers that too it completes with this byte
there; every other byte of memory, the three others of the word written back among them, and every register, hi and
lo are unchanged, and the program counter pair advances. A failing read or write raises the memory's status. (Rule
R270.) -/
def Obligations.StoreByteResult : Prop :=
  ∀ s rt base offset,
    (Answers s (.read (wordAddress (effectiveAddress s base offset))) →
      ∃ w, (∀ k < 4, byteOfWord w k =
          if wordAddress (effectiveAddress s base offset) + BitVec.ofNat 32 k = effectiveAddress s base offset then
            (s.reg rt).extractLsb' 0 8
          else s.mem.get (wordAddress (effectiveAddress s base offset) + BitVec.ofNat 32 k)) ∧
        (Answers s (.write (wordAddress (effectiveAddress s base offset)) w) →
          Stores (.sb rt base offset) s (effectiveAddress s base offset) [(s.reg rt).extractLsb' 0 8]) ∧
        (∀ status, s.mem.answer (.write (wordAddress (effectiveAddress s base offset)) w) = some status →
          exec (.sb rt base offset) s = .fault (.memWrite (wordAddress (effectiveAddress s base offset)) status))) ∧
    (∀ status, s.mem.answer (.read (wordAddress (effectiveAddress s base offset))) = some status →
      exec (.sb rt base offset) s = .fault (.memRead status))

/-- SH raises InvalidAddress at an odd effective address. At an even one whose word the memory answers it requests the
write of the word just read with the halfword there replaced by the low halfword of rt, more significant byte first;
when the memory answers that too it completes with these two bytes there; every other byte of memory and every
register, hi and lo are unchanged, and the program counter pair advances. A failing read or write raises the memory's
status. The byte order and the request for the containing word are the spec's own decisions D5 and D30. (Rests on
45_load_store.md section 3, 92_eei_decisions.md D5, 92_eei_decisions.md D30.) -/
def Obligations.StoreHalfResult : Prop :=
  ∀ s rt base offset,
    ((effectiveAddress s base offset).toNat % 2 ≠ 0 → exec (.sh rt base offset) s = .fault .invalidAddress) ∧
    ((effectiveAddress s base offset).toNat % 2 = 0 →
      (Answers s (.read (wordAddress (effectiveAddress s base offset))) →
        ∃ w, (∀ k < 4, byteOfWord w k =
            if wordAddress (effectiveAddress s base offset) + BitVec.ofNat 32 k = effectiveAddress s base offset then
              (s.reg rt).extractLsb' 8 8
            else if wordAddress (effectiveAddress s base offset) + BitVec.ofNat 32 k =
                effectiveAddress s base offset + 1#32 then
              (s.reg rt).extractLsb' 0 8
            else s.mem.get (wordAddress (effectiveAddress s base offset) + BitVec.ofNat 32 k)) ∧
          (Answers s (.write (wordAddress (effectiveAddress s base offset)) w) →
            Stores (.sh rt base offset) s (effectiveAddress s base offset) [(s.reg rt).extractLsb' 8 8, (s.reg rt).extractLsb' 0 8]) ∧
          (∀ status, s.mem.answer (.write (wordAddress (effectiveAddress s base offset)) w) = some status →
            exec (.sh rt base offset) s = .fault (.memWrite (wordAddress (effectiveAddress s base offset)) status))) ∧
      (∀ status, s.mem.answer (.read (wordAddress (effectiveAddress s base offset))) = some status →
        exec (.sh rt base offset) s = .fault (.memRead status)))

/-- SW raises InvalidAddress at an effective address that is not a multiple of 4. At one that is and whose write of rt
the memory answers it completes with the four bytes of rt there, most significant first; every other byte of memory
and every register, hi and lo are unchanged, and the program counter pair advances. A failing write raises the
memory's status. The byte order is the spec's own decision D5. (Rests on 45_load_store.md section 3,
92_eei_decisions.md D5.) -/
def Obligations.StoreWordResult : Prop :=
  ∀ s rt base offset,
    ((effectiveAddress s base offset).toNat % 4 ≠ 0 → exec (.sw rt base offset) s = .fault .invalidAddress) ∧
    ((effectiveAddress s base offset).toNat % 4 = 0 →
      (Answers s (.write (effectiveAddress s base offset) (s.reg rt)) →
        Stores (.sw rt base offset) s (effectiveAddress s base offset)
          [(s.reg rt).extractLsb' 24 8, (s.reg rt).extractLsb' 16 8, (s.reg rt).extractLsb' 8 8,
           (s.reg rt).extractLsb' 0 8]) ∧
      (∀ status, s.mem.answer (.write (effectiveAddress s base offset) (s.reg rt)) = some status →
        exec (.sw rt base offset) s = .fault (.memWrite (effectiveAddress s base offset) status)))

/-- In every state the reset command succeeds: every general register reads 0, hi, lo and pc are 0, npc is 4, and the
bound memory is untouched (the model's counter of free values included, assumption 5). That npc is 4 after reset is
the spec's own decision D17. (Rests on 40_execution_core.md section 2, 20_memory.md section 5, 92_eei_decisions.md
D17, notes/assumptions/5.md.) -/
def Obligations.ResetCommandRestoresState : Prop :=
  ∀ s, ∃ t, command .reset (some s) = .ok { status := .success, value := none, core := some t } ∧
    (∀ r, t.reg r = 0#32) ∧ t.hi = 0#32 ∧ t.lo = 0#32 ∧ t.pc = 0#32 ∧ t.npc = 4#32 ∧ t.mem = s.mem

/-- Construction bound to a memory gives every general register, hi, lo and pc the value 0 and npc the value 4, with that
memory (and the counter of free values it brings, the model's choice, assumption 5); its first step runs the
instruction whose word stands at address 0, and its next one is at 4. That npc is 4 after construction is the spec's
own decision D17. That create succeeds on every handle, a live core's too, is the model's choice (assumption 13):
R142 names no status for it. (Rests on 70_reset_and_hazards.md section 1, 92_eei_decisions.md D17,
notes/assumptions/13.md, notes/assumptions/5.md.) -/
def Obligations.ConstructionStartsAtZero : Prop :=
  ∀ m, ∃ t, (∀ h, command (.create m) h = .ok { status := .success, value := none, core := some t }) ∧
    (∀ r, t.reg r = 0#32) ∧ t.hi = 0#32 ∧ t.lo = 0#32 ∧ t.pc = 0#32 ∧ t.npc = 4#32 ∧ t.mem = m ∧
    (∀ i, Answers t (.read 0#32) → decodeWord (m.word 0#32) = .ok i → step t = exec i t ∧ ∀ u, step t = .next u → u.pc = 4#32)

/-- In every state an accessor reads or writes the item it names and nothing else: a register below 32 (writes to
register 0 discarded; an index of 32 or more is refused), pc without npc, npc without pc, hi, lo. Register 0, indexes
of 32 or more and the independence of pc and npc are the spec's own decisions D18, D19 and D20. (Rests on
40_execution_core.md section 2, 92_eei_decisions.md D18, 92_eei_decisions.md D19, 92_eei_decisions.md D20,
notes/assumptions/12.md.) -/
def Obligations.AccessorsTouchOnlyTheirItem : Prop :=
  ∀ s v,
    (∀ r : Reg, command (.getRegister r.val) (some s) = .ok { status := .success, value := some (s.reg r), core := some s }) ∧
    (∀ r : Reg, ∃ t, command (.setRegister r.val v) (some s) = .ok { status := .success, value := none, core := some t } ∧
      t.reg r = (if r = 0 then 0#32 else v) ∧ SameRegsBut r s t ∧ SameHiLo s t ∧ t.pc = s.pc ∧ t.npc = s.npc ∧ t.mem = s.mem) ∧
    (∀ n, 32 ≤ n → command (.getRegister n) (some s) = .error (.registerIndex n) ∧
      command (.setRegister n v) (some s) = .error (.registerIndex n)) ∧
    command .getPc (some s) = .ok { status := .success, value := some s.pc, core := some s } ∧
    command .getNpc (some s) = .ok { status := .success, value := some s.npc, core := some s } ∧
    command .getHi (some s) = .ok { status := .success, value := some s.hi, core := some s } ∧
    command .getLo (some s) = .ok { status := .success, value := some s.lo, core := some s } ∧
    command (.setPc v) (some s) = .ok { status := .success, value := none, core := some { s with pc := v } } ∧
    command (.setNpc v) (some s) = .ok { status := .success, value := none, core := some { s with npc := v } } ∧
    command (.setHi v) (some s) = .ok { status := .success, value := none, core := some { s with hi := v } } ∧
    command (.setLo v) (some s) = .ok { status := .success, value := none, core := some { s with lo := v } }

/-- On an unconstructed core, and on the one destroy leaves behind, every command but create returns InvalidHandle and
does nothing. That destroy replies with the status success is the model's choice (assumption 13): R142 names no
status for it. (Rests on 40_execution_core.md section 2, 60_exceptions.md section 1, notes/assumptions/13.md.) -/
def Obligations.MissingCoreReturnsInvalidHandle : Prop :=
  ∀ c, (∀ m, c ≠ .create m) →
    command c none = .ok { status := .invalidHandle, value := none, core := none } ∧
    ∀ s, command .destroy (some s) = .ok { status := .success, value := none, core := none }
end

