-- ==== Sys2Proof/Laws/Decode.lean ====
section
/-! SUPPORT. The fields of a word put together by a format of 30_encoding.md R92 to R95 are the parts it was put
together from. -/

namespace Sys2Proof

/-- A register number survives its five bits. -/
theorem reg_of_regBits (r : Reg) : Fin.ofNat 32 (regBits r).toNat = r := by
  apply Fin.ext
  simp [regBits]

@[simp] theorem opField_encodeR (rs rt rd sa : BitVec 5) (f : BitVec 6) : opField (encodeR rs rt rd sa f) = 0#6 := by
  apply BitVec.eq_of_getLsbD_eq
  intro i hi
  simp only [opField, encodeR, BitVec.getLsbD_extractLsb', BitVec.getLsbD_append]
  have : ¬ 26 + i < 6 := by omega
  have : ¬ 26 + i - 6 < 5 := by omega
  have : ¬ 26 + i - 6 - 5 < 5 := by omega
  have : ¬ 26 + i - 6 - 5 - 5 < 5 := by omega
  have : ¬ 26 + i - 6 - 5 - 5 - 5 < 5 := by omega
  simp [*]

theorem rsBits_encodeR (rs rt rd sa : BitVec 5) (f : BitVec 6) : (encodeR rs rt rd sa f).extractLsb' 21 5 = rs := by
  apply BitVec.eq_of_getLsbD_eq
  intro i hi
  simp only [encodeR, BitVec.getLsbD_extractLsb', BitVec.getLsbD_append]
  have : ¬ 21 + i < 6 := by omega
  have : ¬ 21 + i - 6 < 5 := by omega
  have : ¬ 21 + i - 6 - 5 < 5 := by omega
  have : ¬ 21 + i - 6 - 5 - 5 < 5 := by omega
  have : 21 + i - 6 - 5 - 5 - 5 < 5 := by omega
  have : 21 + i - 6 - 5 - 5 - 5 = i := by omega
  simp [*]

theorem rtBits_encodeR (rs rt rd sa : BitVec 5) (f : BitVec 6) : (encodeR rs rt rd sa f).extractLsb' 16 5 = rt := by
  apply BitVec.eq_of_getLsbD_eq
  intro i hi
  simp only [encodeR, BitVec.getLsbD_extractLsb', BitVec.getLsbD_append]
  have : ¬ 16 + i < 6 := by omega
  have : ¬ 16 + i - 6 < 5 := by omega
  have : ¬ 16 + i - 6 - 5 < 5 := by omega
  have : 16 + i - 6 - 5 - 5 < 5 := by omega
  have : 16 + i - 6 - 5 - 5 = i := by omega
  simp [*]

theorem rdBits_encodeR (rs rt rd sa : BitVec 5) (f : BitVec 6) : (encodeR rs rt rd sa f).extractLsb' 11 5 = rd := by
  apply BitVec.eq_of_getLsbD_eq
  intro i hi
  simp only [encodeR, BitVec.getLsbD_extractLsb', BitVec.getLsbD_append]
  have : ¬ 11 + i < 6 := by omega
  have : ¬ 11 + i - 6 < 5 := by omega
  have : 11 + i - 6 - 5 < 5 := by omega
  have : 11 + i - 6 - 5 = i := by omega
  simp [*]

@[simp] theorem saField_encodeR (rs rt rd sa : BitVec 5) (f : BitVec 6) : saField (encodeR rs rt rd sa f) = sa := by
  apply BitVec.eq_of_getLsbD_eq
  intro i hi
  simp only [saField, encodeR, BitVec.getLsbD_extractLsb', BitVec.getLsbD_append]
  have : ¬ 6 + i < 6 := by omega
  have : 6 + i - 6 < 5 := by omega
  have : 6 + i - 6 = i := by omega
  simp [*]

@[simp] theorem functField_encodeR (rs rt rd sa : BitVec 5) (f : BitVec 6) :
    functField (encodeR rs rt rd sa f) = f := by
  apply BitVec.eq_of_getLsbD_eq
  intro i hi
  simp only [functField, encodeR, BitVec.getLsbD_extractLsb', BitVec.getLsbD_append]
  simp [hi]

@[simp] theorem rsField_encodeR (rs : Reg) (rt rd sa : BitVec 5) (f : BitVec 6) :
    rsField (encodeR (regBits rs) rt rd sa f) = rs := by
  simp only [rsField, rsBits_encodeR, reg_of_regBits]

@[simp] theorem rtField_encodeR (rs : BitVec 5) (rt : Reg) (rd sa : BitVec 5) (f : BitVec 6) :
    rtField (encodeR rs (regBits rt) rd sa f) = rt := by
  simp only [rtField, rtBits_encodeR, reg_of_regBits]

@[simp] theorem rdField_encodeR (rs rt : BitVec 5) (rd : Reg) (sa : BitVec 5) (f : BitVec 6) :
    rdField (encodeR rs rt (regBits rd) sa f) = rd := by
  simp only [rdField, rdBits_encodeR, reg_of_regBits]

@[simp] theorem opField_encodeI (op : BitVec 6) (rs rt : BitVec 5) (imm : Half) :
    opField (encodeI op rs rt imm) = op := by
  apply BitVec.eq_of_getLsbD_eq
  intro i hi
  simp only [opField, encodeI, BitVec.getLsbD_extractLsb', BitVec.getLsbD_append]
  have : ¬ 26 + i < 16 := by omega
  have : ¬ 26 + i - 16 < 5 := by omega
  have : ¬ 26 + i - 16 - 5 < 5 := by omega
  have : 26 + i - 16 - 5 - 5 = i := by omega
  simp [*]

theorem rsBits_encodeI (op : BitVec 6) (rs rt : BitVec 5) (imm : Half) :
    (encodeI op rs rt imm).extractLsb' 21 5 = rs := by
  apply BitVec.eq_of_getLsbD_eq
  intro i hi
  simp only [encodeI, BitVec.getLsbD_extractLsb', BitVec.getLsbD_append]
  have : ¬ 21 + i < 16 := by omega
  have : ¬ 21 + i - 16 < 5 := by omega
  have : 21 + i - 16 - 5 < 5 := by omega
  have : 21 + i - 16 - 5 = i := by omega
  simp [*]

@[simp] theorem subField_encodeI (op : BitVec 6) (rs rt : BitVec 5) (imm : Half) :
    subField (encodeI op rs rt imm) = rt := by
  apply BitVec.eq_of_getLsbD_eq
  intro i hi
  simp only [subField, encodeI, BitVec.getLsbD_extractLsb', BitVec.getLsbD_append]
  have : ¬ 16 + i < 16 := by omega
  have : 16 + i - 16 < 5 := by omega
  have : 16 + i - 16 = i := by omega
  simp [*]

@[simp] theorem immField_encodeI (op : BitVec 6) (rs rt : BitVec 5) (imm : Half) :
    immField (encodeI op rs rt imm) = imm := by
  apply BitVec.eq_of_getLsbD_eq
  intro i hi
  simp only [immField, encodeI, BitVec.getLsbD_extractLsb', BitVec.getLsbD_append]
  simp [hi]

@[simp] theorem rsField_encodeI (op : BitVec 6) (rs : Reg) (rt : BitVec 5) (imm : Half) :
    rsField (encodeI op (regBits rs) rt imm) = rs := by
  simp only [rsField, rsBits_encodeI, reg_of_regBits]

@[simp] theorem rtField_encodeI (op : BitVec 6) (rs : BitVec 5) (rt : Reg) (imm : Half) :
    rtField (encodeI op rs (regBits rt) imm) = rt := by
  have h := subField_encodeI op rs (regBits rt) imm
  simp only [subField] at h
  simp only [rtField, h, reg_of_regBits]

@[simp] theorem opField_encodeJ (op : BitVec 6) (index : BitVec 26) : opField (encodeJ op index) = op := by
  apply BitVec.eq_of_getLsbD_eq
  intro i hi
  simp only [opField, encodeJ, BitVec.getLsbD_extractLsb', BitVec.getLsbD_append]
  simp [hi]

@[simp] theorem indexField_encodeJ (op : BitVec 6) (index : BitVec 26) : indexField (encodeJ op index) = index := by
  apply BitVec.eq_of_getLsbD_eq
  intro i hi
  simp only [indexField, encodeJ, BitVec.getLsbD_extractLsb', BitVec.getLsbD_append]
  simp [hi]

/-- The decoder on bytes is the decoder on the word they stand for. -/
theorem decodeBytes_cons (b0 b1 b2 b3 : Byte) (rest : List Byte) :
    decodeBytes (b0 :: b1 :: b2 :: b3 :: rest) = (decodeWord (wordOfBytes b0 b1 b2 b3)).map (fun i => (i, rest)) := by
  simp only [decodeBytes]
  cases decodeWord (wordOfBytes b0 b1 b2 b3) <;> rfl

end Sys2Proof
end

