-- ==== Sys2Proof/Laws/State.lean ====
section
/-! SUPPORT. One lemma for each field of each update of the state. -/

namespace Sys2Proof.Machine

/-! ### The commit -/

@[simp] theorem State.commit_gpr (s : State) (e : Effects) : (s.commit e).gpr = commitGpr s.gpr e.gpr := rfl
@[simp] theorem State.commit_pc (s : State) (e : Effects) : (s.commit e).pc = s.npc := rfl
@[simp] theorem State.commit_npc (s : State) (e : Effects) : (s.commit e).npc = e.target.getD (s.npc + 4#32) := rfl
@[simp] theorem State.commit_hi (s : State) (e : Effects) : (s.commit e).hi = e.hi.getD s.hi := rfl
@[simp] theorem State.commit_lo (s : State) (e : Effects) : (s.commit e).lo = e.lo.getD s.lo := rfl
@[simp] theorem State.commit_mem (s : State) (e : Effects) : (s.commit e).mem = s.mem := rfl

/-! ### The memory -/

@[simp] theorem Memory.set_size (m : Memory) (a : Word) (v : Byte) : (m.set a v).size = m.size := rfl
@[simp] theorem Memory.set_errors (m : Memory) (a : Word) (v : Byte) : (m.set a v).errors = m.errors := rfl
@[simp] theorem Memory.setWord_size (m : Memory) (a v : Word) : (m.setWord a v).size = m.size := rfl
@[simp] theorem Memory.setWord_errors (m : Memory) (a v : Word) : (m.setWord a v).errors = m.errors := rfl
@[simp] theorem Memory.setWord_answer (m : Memory) (a v : Word) (r : Request) :
    (m.setWord a v).answer r = m.answer r := rfl
@[simp] theorem Memory.set_freeIndex (m : Memory) (a : Word) (v : Byte) : (m.set a v).freeIndex = m.freeIndex := rfl
@[simp] theorem Memory.setWord_freeIndex (m : Memory) (a v : Word) : (m.setWord a v).freeIndex = m.freeIndex := rfl

/-- The answer to a request depends on the store's size and its failing requests alone. -/
theorem Memory.answer_congr {m n : Memory} (hs : n.size = m.size) (he : n.errors = m.errors) (r : Request) :
    n.answer r = m.answer r := by
  simp [Memory.answer, hs, he]

/-- The word at an address depends on the bytes alone. -/
theorem Memory.word_congr {m n : Memory} (h : ∀ a, n.get a = m.get a) (a : Word) : n.word a = m.word a := by
  simp [Memory.word, h]

/-- A register read depends on the register file alone. -/
theorem State.reg_eq_of_gpr {s t : State} (h : t.gpr = s.gpr) (r : Reg) : t.reg r = s.reg r := by
  simp [State.reg, h]

@[simp] theorem State.reg_zero (s : State) : s.reg 0 = 0#32 := rfl

@[simp] theorem State.withMem_reg (s : State) (m : Memory) (r : Reg) :
    State.reg { s with mem := m } r = s.reg r := rfl

/-! ### The host's updates -/

@[simp] theorem placeAtPc_mem (s : State) (w : Word) : (placeAtPc s w).mem = s.mem.setWord s.pc w := rfl
@[simp] theorem placeAtPc_pc (s : State) (w : Word) : (placeAtPc s w).pc = s.pc := rfl
@[simp] theorem placeAtPc_npc (s : State) (w : Word) : (placeAtPc s w).npc = s.npc := rfl
@[simp] theorem placeAtPc_gpr (s : State) (w : Word) : (placeAtPc s w).gpr = s.gpr := rfl
@[simp] theorem placeAtPc_hi (s : State) (w : Word) : (placeAtPc s w).hi = s.hi := rfl
@[simp] theorem placeAtPc_lo (s : State) (w : Word) : (placeAtPc s w).lo = s.lo := rfl

@[simp] theorem State.resetCommand_gpr (s : State) : s.resetCommand.gpr = Vector.replicate 32 0#32 := rfl
@[simp] theorem State.resetCommand_pc (s : State) : s.resetCommand.pc = 0#32 := rfl
@[simp] theorem State.resetCommand_npc (s : State) : s.resetCommand.npc = 4#32 := rfl
@[simp] theorem State.resetCommand_hi (s : State) : s.resetCommand.hi = 0#32 := rfl
@[simp] theorem State.resetCommand_lo (s : State) : s.resetCommand.lo = 0#32 := rfl
@[simp] theorem State.resetCommand_mem (s : State) : s.resetCommand.mem = s.mem := rfl

@[simp] theorem State.create_gpr (m : Memory) : (State.create m).gpr = Vector.replicate 32 0#32 := rfl
@[simp] theorem State.create_pc (m : Memory) : (State.create m).pc = 0#32 := rfl
@[simp] theorem State.create_npc (m : Memory) : (State.create m).npc = 4#32 := rfl
@[simp] theorem State.create_hi (m : Memory) : (State.create m).hi = 0#32 := rfl
@[simp] theorem State.create_lo (m : Memory) : (State.create m).lo = 0#32 := rfl
@[simp] theorem State.create_mem (m : Memory) : (State.create m).mem = m := rfl

/-! ### After a fault -/

@[simp] theorem State.afterFault_gpr (s : State) (f : Fault) : (s.afterFault f).gpr = s.gpr := by cases f <;> rfl
@[simp] theorem State.afterFault_pc (s : State) (f : Fault) : (s.afterFault f).pc = s.pc := by cases f <;> rfl
@[simp] theorem State.afterFault_npc (s : State) (f : Fault) : (s.afterFault f).npc = s.npc := by cases f <;> rfl
@[simp] theorem State.afterFault_hi (s : State) (f : Fault) : (s.afterFault f).hi = s.hi := by cases f <;> rfl
@[simp] theorem State.afterFault_lo (s : State) (f : Fault) : (s.afterFault f).lo = s.lo := by cases f <;> rfl

end Sys2Proof.Machine
end

