-- ==== Sys2Proof/Laws/Memory.lean ====
section
/-! SUPPORT. The laws of the byte store: read after write, canonical form, and equality of canonical memories. -/

namespace Sys2Proof.Machine

/-! ### Read after write -/

theorem readCell_filter_ne {l : List Host.Cell} {a b : Nat} (h : b ≠ a) :
    readCell (l.filter (fun c => c.1 != a)) b = readCell l b := by
  induction l with
  | nil => rfl
  | cons c l ih =>
    obtain ⟨d, w⟩ := c
    by_cases hd : d = a
    · subst hd; simp [readCell, h, ih]
    · simp [readCell, hd, ih]

theorem readCell_filter_self (l : List Host.Cell) (a : Nat) :
    readCell (l.filter (fun c => c.1 != a)) a = Config.unlistedByte := by
  induction l with
  | nil => rfl
  | cons c l ih =>
    obtain ⟨d, w⟩ := c
    by_cases hd : d = a
    · subst hd; simpa using ih
    · simp [readCell, hd, ih, Ne.symm hd]

theorem readCell_insertCell_ne {l : List Host.Cell} {a b : Nat} (v : Byte) (h : b ≠ a) :
    readCell (insertCell l a v) b = readCell l b := by
  induction l with
  | nil => simp [insertCell, readCell, h]
  | cons c l ih =>
    obtain ⟨d, w⟩ := c
    simp only [insertCell]
    split <;> simp [readCell, h, ih]

theorem readCell_insertCell_self {l : List Host.Cell} {a : Nat} (v : Byte) (h : ∀ c ∈ l, c.1 ≠ a) :
    readCell (insertCell l a v) a = v := by
  induction l with
  | nil => simp [insertCell, readCell]
  | cons c l ih =>
    obtain ⟨d, w⟩ := c
    have hd : a ≠ d := fun e => h (d, w) (by simp) e.symm
    have hl : ∀ c ∈ l, c.1 ≠ a := fun c hc => h c (by simp [hc])
    simp only [insertCell]
    split <;> simp [readCell, hd, ih hl]

/-- Reading an address after a write gives the byte written there, and any other byte as before. -/
theorem readCell_writeCell (l : List Host.Cell) (a b : Nat) (v : Byte) :
    readCell (writeCell l a v) b = if b = a then v else readCell l b := by
  unfold writeCell
  by_cases hb : b = a
  · subst hb
    by_cases hv : v = Config.unlistedByte
    · simp [hv, readCell_filter_self]
    · simp only [hv, if_false, if_true]
      exact readCell_insertCell_self v (by simp)
  · by_cases hv : v = Config.unlistedByte
    · simp [hv, hb, readCell_filter_ne hb]
    · simp [hv, hb, readCell_insertCell_ne v hb, readCell_filter_ne hb]

/-! ### Canonical form -/

/-- The canonical form said with the list's own predicates. -/
theorem cellsWf_iff (l : List Host.Cell) :
    cellsWf l = true ↔
      l.Pairwise (fun c d => c.1 < d.1) ∧ ∀ c ∈ l, c.1 < 4294967296 ∧ c.2 ≠ Config.unlistedByte := by
  induction l with
  | nil => simp [cellsWf]
  | cons c l ih =>
    obtain ⟨a, v⟩ := c
    cases l with
    | nil => simp [cellsWf]
    | cons d l =>
      obtain ⟨b, w⟩ := d
      have step : cellsWf ((a, v) :: (b, w) :: l) =
          (decide (a < b) && v != Config.unlistedByte && cellsWf ((b, w) :: l)) := rfl
      rw [step, Bool.and_eq_true, Bool.and_eq_true, ih, decide_eq_true_eq, bne_iff_ne]
      constructor
      · rintro ⟨⟨hab, hv⟩, hp, hm⟩
        have hb := (hm (b, w) (by simp)).1
        rw [List.pairwise_cons] at hp ⊢
        refine ⟨⟨?_, List.pairwise_cons.2 hp⟩, ?_⟩
        · rintro x hx
          rcases List.mem_cons.1 hx with rfl | hx
          · exact hab
          · exact Nat.lt_trans hab (hp.1 x hx)
        · rintro x hx
          rcases List.mem_cons.1 hx with rfl | hx
          · exact ⟨Nat.lt_trans hab hb, hv⟩
          · exact hm x hx
      · rintro ⟨hp, hm⟩
        rw [List.pairwise_cons] at hp
        exact ⟨⟨hp.1 (b, w) (by simp), (hm (a, v) (by simp)).2⟩, hp.2, fun x hx => hm x (by simp [hx])⟩

theorem mem_insertCell {l : List Host.Cell} {a : Nat} {v : Byte} {c : Host.Cell} :
    c ∈ insertCell l a v ↔ c = (a, v) ∨ c ∈ l := by
  induction l with
  | nil => simp [insertCell]
  | cons d l ih =>
    obtain ⟨b, w⟩ := d
    simp only [insertCell]
    split
    · simp
    · simp only [List.mem_cons, ih]; tauto

theorem pairwise_insertCell {l : List Host.Cell} {a : Nat} (v : Byte) (hp : l.Pairwise (fun c d => c.1 < d.1))
    (hn : ∀ c ∈ l, c.1 ≠ a) : (insertCell l a v).Pairwise (fun c d => c.1 < d.1) := by
  induction l with
  | nil => simp [insertCell]
  | cons d l ih =>
    obtain ⟨b, w⟩ := d
    rw [List.pairwise_cons] at hp
    have hb : b ≠ a := hn (b, w) (by simp)
    simp only [insertCell]
    split
    · rename_i hab
      refine List.pairwise_cons.2 ⟨?_, List.pairwise_cons.2 hp⟩
      rintro x hx
      rcases List.mem_cons.1 hx with rfl | hx
      · exact hab
      · exact Nat.lt_trans hab (hp.1 x hx)
    · rename_i hab
      refine List.pairwise_cons.2 ⟨?_, ih hp.2 (fun c hc => hn c (by simp [hc]))⟩
      intro x hx
      rcases mem_insertCell.1 hx with rfl | hx
      · show b < a; omega
      · exact hp.1 x hx

/-- A write keeps the canonical form. -/
theorem cellsWf_writeCell {l : List Host.Cell} {a : Nat} (v : Byte) (ha : a < 4294967296) (h : cellsWf l = true) :
    cellsWf (writeCell l a v) = true := by
  rw [cellsWf_iff] at h ⊢
  have hf : (l.filter (fun c => c.1 != a)).Pairwise (fun c d => c.1 < d.1) := h.1.filter _
  have hm : ∀ c ∈ l.filter (fun c => c.1 != a), c.1 < 4294967296 ∧ c.2 ≠ Config.unlistedByte :=
    fun c hc => h.2 c (List.mem_filter.1 hc).1
  unfold writeCell
  by_cases hv : v = Config.unlistedByte
  · simp only [hv, if_true]
    exact ⟨hf, hm⟩
  · simp only [hv, if_false]
    refine ⟨pairwise_insertCell v hf (by simp), fun c hc => ?_⟩
    rcases mem_insertCell.1 hc with rfl | hc
    · exact ⟨ha, hv⟩
    · exact hm c hc

/-- Canonical lists that read alike are equal: the head of one is the head of the other. -/
theorem cells_ext {l l' : List Host.Cell} (h : cellsWf l = true) (h' : cellsWf l' = true)
    (e : ∀ a, a < 4294967296 → readCell l a = readCell l' a) : l = l' := by
  rw [cellsWf_iff] at h h'
  induction l generalizing l' with
  | nil =>
    cases l' with
    | nil => rfl
    | cons c l' =>
      obtain ⟨a, v⟩ := c
      have hc := h'.2 (a, v) (by simp)
      have := e a hc.1
      simp [readCell] at this
      exact absurd this.symm hc.2
  | cons c l ih =>
    obtain ⟨a, v⟩ := c
    have hc := h.2 (a, v) (by simp)
    have hp := List.pairwise_cons.1 h.1
    cases l' with
    | nil =>
      have := e a hc.1
      simp [readCell] at this
      exact absurd this hc.2
    | cons d l' =>
      obtain ⟨b, w⟩ := d
      have hd := h'.2 (b, w) (by simp)
      have hp' := List.pairwise_cons.1 h'.1
      have below : ∀ {m : List Host.Cell} {x : Nat}, (∀ c ∈ m, x < c.1) → readCell m x = Config.unlistedByte := by
        intro m x hm
        induction m with
        | nil => rfl
        | cons c m ihm =>
          obtain ⟨y, u⟩ := c
          have hy : x < y := hm (y, u) (by simp)
          simp [readCell, Nat.ne_of_lt hy, ihm (fun c hc => hm c (by simp [hc]))]
      have hab : a = b := by
        rcases Nat.lt_trichotomy a b with hlt | heq | hgt
        · have h1 := e a hc.1
          rw [below (m := (b, w) :: l') (x := a)] at h1
          · simp [readCell] at h1; exact absurd h1 hc.2
          · intro c hc'
            rcases List.mem_cons.1 hc' with rfl | hc'
            · exact hlt
            · exact Nat.lt_trans hlt (hp'.1 c hc')
        · exact heq
        · have h1 := e b hd.1
          rw [below (m := (a, v) :: l) (x := b)] at h1
          · simp [readCell] at h1; exact absurd h1.symm hd.2
          · intro c hc'
            rcases List.mem_cons.1 hc' with rfl | hc'
            · exact hgt
            · exact Nat.lt_trans hgt (hp.1 c hc')
      subst hab
      have hv : v = w := by simpa [readCell] using e a hc.1
      subst hv
      congr 1
      refine ih ⟨hp.2, fun c hc => h.2 c (by simp [hc])⟩ ⟨hp'.2, fun c hc => h'.2 c (by simp [hc])⟩ ?_
      intro x hx
      by_cases hxa : x = a
      · subst hxa; rw [below hp.1, below hp'.1]
      · simpa [readCell, hxa] using e x hx

/-! ### The memory -/

/-- Reading a byte after a write of one byte. -/
theorem Memory.get_set (m : Memory) (a b : Word) (v : Byte) :
    (m.set a v).get b = if b = a then v else m.get b := by
  simp [Memory.get, Memory.set, readCell_writeCell, BitVec.toNat_inj]

/-- A write of one byte keeps the canonical form. -/
theorem Memory.wf_set {m : Memory} (a : Word) (v : Byte) (h : m.wf = true) : (m.set a v).wf = true :=
  cellsWf_writeCell v a.isLt h

/-- A write of one word keeps the canonical form. -/
theorem Memory.wf_setWord {m : Memory} (a v : Word) (h : m.wf = true) : (m.setWord a v).wf = true :=
  wf_set _ _ (wf_set _ _ (wf_set _ _ (wf_set _ _ h)))

/-- Reading a byte after a write of one word: the four bytes from its address on are the word's, the most significant
first. -/
theorem Memory.get_setWord (m : Memory) (a b v : Word) :
    (m.setWord a v).get b =
      if b = a + 3#32 then byteOfWord v 3
      else if b = a + 2#32 then byteOfWord v 2
      else if b = a + 1#32 then byteOfWord v 1
      else if b = a then byteOfWord v 0
      else m.get b := by
  simp only [Memory.setWord, Memory.get_set]

/-- A word is put together from its bytes. -/
theorem wordOfBytes_byteOfWord (w : Word) :
    wordOfBytes (byteOfWord w 0) (byteOfWord w 1) (byteOfWord w 2) (byteOfWord w 3) = w := by
  apply BitVec.eq_of_getLsbD_eq
  intro i hi
  simp only [wordOfBytes, byteOfWord, BitVec.getLsbD_append, BitVec.getLsbD_extractLsb']
  by_cases h1 : i < 8
  · simp [h1]
  · by_cases h2 : i < 16
    · simp [h1, show i - 8 < 8 by omega, show 8 + (i - 8) = i by omega]
    · by_cases h3 : i < 24
      · simp [h1, show ¬ i - 8 < 8 by omega, show i - 8 - 8 < 8 by omega, show 16 + (i - 8 - 8) = i by omega]
      · simp [h1, show ¬ i - 8 < 8 by omega, show ¬ i - 8 - 8 < 8 by omega, show i - 8 - 8 - 8 < 8 by omega,
          show 24 + (i - 8 - 8 - 8) = i by omega]

/-- Reading a word after a write of it gives the word. -/
@[simp] theorem Memory.word_setWord (m : Memory) (a v : Word) : (m.setWord a v).word a = v := by
  have n1 : a + 1#32 ≠ a + 2#32 := by bv_omega
  have n2 : a + 1#32 ≠ a + 3#32 := by bv_omega
  have n3 : a + 2#32 ≠ a + 3#32 := by bv_omega
  have n4 : a ≠ a + 1#32 := by bv_omega
  have n5 : a ≠ a + 2#32 := by bv_omega
  have n6 : a ≠ a + 3#32 := by bv_omega
  simp [Memory.word, Memory.get_setWord, n1, n2, n3, n4, n5, n6, wordOfBytes_byteOfWord]

/-- Writing a word leaves every byte outside its four bytes alone. -/
theorem Memory.get_setWord_of_ne {m : Memory} {a b v : Word} (h : ∀ k < 4, b ≠ a + BitVec.ofNat 32 k) :
    (m.setWord a v).get b = m.get b := by
  have h0 := h 0 (by omega)
  have h1 := h 1 (by omega)
  have h2 := h 2 (by omega)
  have h3 := h 3 (by omega)
  simp only [Memory.get_setWord]
  simp_all

/-- A byte of a failed write: free in the store, and every other byte is left alone. -/
theorem spoilByte_get (m : Memory) (a b : Word) (n : Nat) :
    (spoilByte m a n).get b = if b = a ∧ a.toNat < m.size then Config.failedWriteByte n else m.get b := by
  unfold spoilByte
  split <;> simp_all [Memory.get_set]

theorem spoilByte_wf {m : Memory} (a : Word) (n : Nat) (h : m.wf = true) : (spoilByte m a n).wf = true := by
  unfold spoilByte
  split
  · exact Memory.wf_set _ _ h
  · exact h

theorem spoilWord_wf {m : Memory} (a : Word) (h : m.wf = true) : (spoilWord m a).wf = true :=
  spoilByte_wf _ _ (spoilByte_wf _ _ (spoilByte_wf _ _ (spoilByte_wf _ _ h)))

@[simp] theorem spoilByte_size (m : Memory) (a : Word) (n : Nat) : (spoilByte m a n).size = m.size := by
  unfold spoilByte; split <;> rfl

@[simp] theorem spoilByte_errors (m : Memory) (a : Word) (n : Nat) : (spoilByte m a n).errors = m.errors := by
  unfold spoilByte; split <;> rfl

@[simp] theorem spoilWord_size (m : Memory) (a : Word) : (spoilWord m a).size = m.size := by simp [spoilWord]

@[simp] theorem spoilWord_errors (m : Memory) (a : Word) : (spoilWord m a).errors = m.errors := by simp [spoilWord]

@[simp] theorem spoilWord_freeIndex (m : Memory) (a : Word) : (spoilWord m a).freeIndex = m.freeIndex + 4 := rfl

/-- A byte of the store after a failed write: its four bytes are spoiled in turn. -/
theorem spoilWord_get (m : Memory) (a b : Word) :
    (spoilWord m a).get b =
      (spoilByte (spoilByte (spoilByte (spoilByte m a m.freeIndex) (a + 1#32) (m.freeIndex + 1)) (a + 2#32)
        (m.freeIndex + 2)) (a + 3#32) (m.freeIndex + 3)).get b := rfl

/-- A failed write leaves every byte outside its word alone. -/
theorem spoilWord_get_of_ne {m : Memory} {a b : Word} (h : ∀ k < 4, b ≠ a + BitVec.ofNat 32 k) :
    (spoilWord m a).get b = m.get b := by
  have h0 := h 0 (by omega)
  have h1 := h 1 (by omega)
  have h2 := h 2 (by omega)
  have h3 := h 3 (by omega)
  simp only [BitVec.add_zero] at h0
  simp only [spoilWord_get, spoilByte_get]
  simp_all

end Sys2Proof.Machine
end

