-- ==== Sys2Proof/Laws/Lanes.lean ====
section
/-! SUPPORT. The lanes of a word at an aligned address are the bytes of memory from that address on
(20_memory.md R66), for reading and for replacing. -/

namespace Sys2Proof.Machine

/-! ### Aligned addresses -/

theorem wordAddress_toNat (ea : Word) : (wordAddress ea).toNat = ea.toNat - ea.toNat % 4 := by
  unfold wordAddress lane
  have := ea.isLt
  rw [BitVec.toNat_sub, BitVec.toNat_ofNat]
  omega

/-- The word address plus the lane is the effective address. -/
theorem wordAddress_add_lane (ea : Word) : wordAddress ea + BitVec.ofNat 32 (lane ea) = ea := by
  simp [wordAddress]

/-- The word address of an aligned address is the address itself. -/
theorem wordAddress_of_aligned {ea : Word} (h : ea.toNat % 4 = 0) : wordAddress ea = ea := by
  simp [wordAddress, lane, h]

theorem lane_lt (ea : Word) : lane ea < 4 := Nat.mod_lt _ (by omega)

/-- A misaligned address, as a number. -/
@[simp] theorem misaligned_eq_true {a : Word} {n : Nat} : misaligned a n = true ↔ a.toNat % n ≠ 0 := by
  simp [misaligned]

@[simp] theorem misaligned_eq_false {a : Word} {n : Nat} : misaligned a n = false ↔ a.toNat % n = 0 := by
  simp [misaligned]

@[simp] theorem misaligned_one (a : Word) : misaligned a 1 = false := by simp [Nat.mod_one]

/-! ### Bytes of a word -/

theorem byteLane_eq_byteOfWord (w : Word) (k : Nat) : byteLane w k = byteOfWord w k := rfl

/-- Byte `k` of a word put together from four bytes is the `k`-th of them. -/
theorem byteOfWord_wordOfBytes (b0 b1 b2 b3 : Byte) :
    byteOfWord (wordOfBytes b0 b1 b2 b3) 0 = b0 ∧ byteOfWord (wordOfBytes b0 b1 b2 b3) 1 = b1 ∧
      byteOfWord (wordOfBytes b0 b1 b2 b3) 2 = b2 ∧ byteOfWord (wordOfBytes b0 b1 b2 b3) 3 = b3 := by
  refine ⟨?_, ?_, ?_, ?_⟩ <;>
  · apply BitVec.eq_of_getLsbD_eq
    intro i hi
    simp only [byteOfWord, wordOfBytes, BitVec.getLsbD_extractLsb', BitVec.getLsbD_append]
    simp [hi, show ¬ 24 + i < 8 by omega, show ¬ 16 + i < 8 by omega, show ¬ 8 + i < 8 by omega,
      show ¬ 24 + i - 8 < 8 by omega, show ¬ 16 + i - 8 < 8 by omega, show 8 + i - 8 = i by omega,
      show ¬ 24 + i - 8 - 8 < 8 by omega, show 16 + i - 8 - 8 = i by omega, show 24 + i - 8 - 8 - 8 = i by omega]

/-- A halfword of a word is two of its bytes, the more significant first. -/
theorem halfLane_eq_append (w : Word) {k : Nat} (h : k = 0 ∨ k = 2) :
    halfLane w k = byteOfWord w k ++ byteOfWord w (k + 1) := by
  rcases h with rfl | rfl <;>
  · apply BitVec.eq_of_getLsbD_eq
    intro i hi
    simp only [byteOfWord, halfLane, BitVec.getLsbD_extractLsb', BitVec.getLsbD_append]
    by_cases h8 : i < 8
    · simp [h8, hi]
    · simp [h8, hi, show i - 8 < 8 by omega, show 8 + (i - 8) = i by omega, show 24 + (i - 8) = 16 + i by omega]

/-- The bytes of a word after one lane is replaced. -/
theorem byteOfWord_setByteLane (w : Word) (b : Byte) {j k : Nat} (hj : j < 4) (hk : k < 4) :
    byteOfWord (setByteLane w k b) j = if j = k then b else byteOfWord w j := by
  apply BitVec.eq_of_getLsbD_eq
  intro i hi
  simp only [byteOfWord, setByteLane, BitVec.getLsbD_extractLsb', BitVec.getLsbD_or, BitVec.getLsbD_and,
    BitVec.getLsbD_not, BitVec.getLsbD_shiftLeft]
  have hlt : 24 - 8 * j + i < 32 := by omega
  have e : (0xFF#32 : Word) = BitVec.ofNat 32 (2 ^ 8 - 1) := rfl
  rw [e]
  simp only [BitVec.getLsbD_ofNat, Nat.testBit_two_pow_sub_one]
  by_cases hjk : j = k
  · subst hjk
    simp [hi, hlt, show ¬ 24 - 8 * j + i < 24 - 8 * j by omega, show 24 - 8 * j + i - (24 - 8 * j) = i by omega,
      show i < 32 by omega]
  · by_cases hlow : j > k
    · simp [hjk, hi, hlt, show 24 - 8 * j + i < 24 - 8 * k by omega]
    · have h1 : ¬ 24 - 8 * j + i < 24 - 8 * k := by omega
      have h2 : ¬ 24 - 8 * j + i - (24 - 8 * k) < 8 := by omega
      have h3 := BitVec.getLsbD_of_ge b (24 - 8 * j + i - (24 - 8 * k)) (by omega)
      simp [hjk, hi, hlt, h1, h2, h3]

/-- The bytes of a word after one halfword is replaced. -/
theorem byteOfWord_setHalfLane (w : Word) (h : Half) {j k : Nat} (hj : j < 4) (hk : k = 0 ∨ k = 2) :
    byteOfWord (setHalfLane w k h) j =
      if j = k then h.extractLsb' 8 8 else if j = k + 1 then h.extractLsb' 0 8 else byteOfWord w j := by
  apply BitVec.eq_of_getLsbD_eq
  intro i hi
  simp only [byteOfWord, setHalfLane, BitVec.getLsbD_extractLsb', BitVec.getLsbD_or, BitVec.getLsbD_and,
    BitVec.getLsbD_not, BitVec.getLsbD_shiftLeft]
  have hlt : 24 - 8 * j + i < 32 := by omega
  have e : (0xFFFF#32 : Word) = BitVec.ofNat 32 (2 ^ 16 - 1) := rfl
  rw [e]
  simp only [BitVec.getLsbD_ofNat, Nat.testBit_two_pow_sub_one]
  by_cases hjk : j = k
  · subst hjk
    have h1 : ¬ 24 - 8 * j + i < 16 - 8 * j := by omega
    have h2 : 24 - 8 * j + i - (16 - 8 * j) = 8 + i := by omega
    have h3 : 8 + i < 16 := by omega
    simp [hi, hlt, h1, h2, h3, show 8 + i < 32 by omega]
  · by_cases hj1 : j = k + 1
    · have h1 : ¬ 24 - 8 * (k + 1) + i < 16 - 8 * k := by omega
      have h2 : 24 - 8 * (k + 1) + i - (16 - 8 * k) = i := by omega
      subst hj1
      simp [hi, hlt, h1, h2, show i < 16 by omega, show i < 32 by omega]
    · by_cases hlow : j > k
      · simp [hjk, hj1, hi, hlt, show 24 - 8 * j + i < 16 - 8 * k by omega]
      · have h1 : ¬ 24 - 8 * j + i < 16 - 8 * k := by omega
        have h2 : ¬ 24 - 8 * j + i - (16 - 8 * k) < 16 := by omega
        have h3 := BitVec.getLsbD_of_ge h (24 - 8 * j + i - (16 - 8 * k)) (by omega)
        simp [hjk, hj1, hi, hlt, h1, h2, h3]

/-! ### Lanes and memory -/

/-- Byte `k` of the word at an address is the byte `k` after it. -/
theorem byteOfWord_word (m : Memory) (a : Word) {k : Nat} (hk : k < 4) :
    byteOfWord (m.word a) k = m.get (a + BitVec.ofNat 32 k) := by
  obtain ⟨h0, h1, h2, h3⟩ := byteOfWord_wordOfBytes (m.get a) (m.get (a + 1#32)) (m.get (a + 2#32)) (m.get (a + 3#32))
  match k, hk with
  | 0, _ => simpa [Memory.word] using h0
  | 1, _ => exact h1
  | 2, _ => exact h2
  | 3, _ => exact h3

/-- The byte a byte load takes from the containing word is the byte at the effective address. -/
theorem byteLane_word (m : Memory) (ea : Word) : byteLane (m.word (wordAddress ea)) (lane ea) = m.get ea := by
  rw [byteLane_eq_byteOfWord, byteOfWord_word _ _ (lane_lt ea), wordAddress_add_lane]

theorem lane_of_even {ea : Word} (h : ea.toNat % 2 = 0) : lane ea = 0 ∨ lane ea = 2 := by
  have := lane_lt ea
  unfold lane at *
  omega

/-- The halfword a halfword load takes from the containing word is the two bytes from the effective address on. -/
theorem halfLane_word (m : Memory) {ea : Word} (h : ea.toNat % 2 = 0) :
    halfLane (m.word (wordAddress ea)) (lane ea) = m.get ea ++ m.get (ea + 1#32) := by
  have hl := lane_of_even h
  have e : wordAddress ea + BitVec.ofNat 32 (lane ea + 1) = ea + 1#32 := by
    rw [BitVec.ofNat_add, ← BitVec.add_assoc, wordAddress_add_lane]
  rw [halfLane_eq_append _ hl, byteOfWord_word _ _ (lane_lt ea), byteOfWord_word _ _ (by omega), e,
    wordAddress_add_lane]

/-- Reading a byte after a write of one word, by the number of the byte within the word. -/
theorem Memory.get_setWord_cases (m : Memory) (a v b : Word) :
    (∃ k < 4, b = a + BitVec.ofNat 32 k ∧ (m.setWord a v).get b = byteOfWord v k) ∨
      ((∀ k < 4, b ≠ a + BitVec.ofNat 32 k) ∧ (m.setWord a v).get b = m.get b) := by
  by_cases h : ∃ k < 4, b = a + BitVec.ofNat 32 k
  · obtain ⟨k, hk, rfl⟩ := h
    refine .inl ⟨k, hk, rfl, ?_⟩
    have n1 : a + 1#32 ≠ a + 2#32 := by bv_omega
    have n2 : a + 1#32 ≠ a + 3#32 := by bv_omega
    have n3 : a + 2#32 ≠ a + 3#32 := by bv_omega
    have n4 : a ≠ a + 1#32 := by bv_omega
    have n5 : a ≠ a + 2#32 := by bv_omega
    have n6 : a ≠ a + 3#32 := by bv_omega
    match k, hk with
    | 0, _ => simp [Memory.get_setWord, n4, n5, n6]
    | 1, _ => simp [Memory.get_setWord, n1, n2]
    | 2, _ => simp [Memory.get_setWord, n3]
    | 3, _ => simp [Memory.get_setWord]
  · have h' : ∀ k < 4, b ≠ a + BitVec.ofNat 32 k := fun k hk e => h ⟨k, hk, e⟩
    exact .inr ⟨h', Memory.get_setWord_of_ne h'⟩

theorem add_ofNat_inj {a : Word} {j k : Nat} (hj : j < 4) (hk : k < 4)
    (h : a + BitVec.ofNat 32 j = a + BitVec.ofNat 32 k) : j = k := by
  have h1 := (BitVec.add_right_inj a).1 h
  have h2 := congrArg BitVec.toNat h1
  rw [BitVec.toNat_ofNat, BitVec.toNat_ofNat] at h2
  omega

/-- After a byte store's write of the whole word, only the byte at the effective address differs. -/
theorem get_setWord_setByteLane (m : Memory) (ea b : Word) (v : Byte) :
    (m.setWord (wordAddress ea) (setByteLane (m.word (wordAddress ea)) (lane ea) v)).get b =
      if b = ea then v else m.get b := by
  rcases m.get_setWord_cases (wordAddress ea) (setByteLane (m.word (wordAddress ea)) (lane ea) v) b with
    ⟨k, hk, rfl, e⟩ | ⟨hne, e⟩
  · rw [e, byteOfWord_setByteLane _ _ hk (lane_lt ea), byteOfWord_word _ _ hk]
    by_cases hkl : k = lane ea
    · subst hkl; simp [wordAddress_add_lane]
    · have : wordAddress ea + BitVec.ofNat 32 k ≠ ea := fun he =>
        hkl (add_ofNat_inj hk (lane_lt ea) (he.trans (wordAddress_add_lane ea).symm))
      simp [hkl, this]
  · have : b ≠ ea := fun he => hne _ (lane_lt ea) (he.trans (wordAddress_add_lane ea).symm)
    simp [e, this]

/-- After a halfword store's write of the whole word, only the two bytes from the effective address on differ. -/
theorem get_setWord_setHalfLane (m : Memory) {ea : Word} (b : Word) (v : Half) (h : ea.toNat % 2 = 0) :
    (m.setWord (wordAddress ea) (setHalfLane (m.word (wordAddress ea)) (lane ea) v)).get b =
      if b = ea then v.extractLsb' 8 8 else if b = ea + 1#32 then v.extractLsb' 0 8 else m.get b := by
  have hl := lane_of_even h
  have hl4 : lane ea + 1 < 4 := by omega
  have e1 : wordAddress ea + BitVec.ofNat 32 (lane ea + 1) = ea + 1#32 := by
    rw [BitVec.ofNat_add, ← BitVec.add_assoc, wordAddress_add_lane]
  rcases m.get_setWord_cases (wordAddress ea) (setHalfLane (m.word (wordAddress ea)) (lane ea) v) b with
    ⟨k, hk, rfl, e⟩ | ⟨hne, e⟩
  · rw [e, byteOfWord_setHalfLane _ _ hk hl, byteOfWord_word _ _ hk]
    by_cases hkl : k = lane ea
    · subst hkl; simp [wordAddress_add_lane]
    · have h0 : wordAddress ea + BitVec.ofNat 32 k ≠ ea := fun he =>
        hkl (add_ofNat_inj hk (lane_lt ea) (he.trans (wordAddress_add_lane ea).symm))
      by_cases hk1 : k = lane ea + 1
      · subst hk1
        rw [e1] at h0 ⊢
        simp [h0]
      · have h1 : wordAddress ea + BitVec.ofNat 32 k ≠ ea + 1#32 := fun he =>
          hk1 (add_ofNat_inj hk hl4 (he.trans e1.symm))
        simp [hkl, hk1, h0, h1]
  · have h0 : b ≠ ea := fun he => hne _ (lane_lt ea) (he.trans (wordAddress_add_lane ea).symm)
    have h1 : b ≠ ea + 1#32 := fun he => hne _ hl4 (he.trans e1.symm)
    simp [e, h0, h1]

end Sys2Proof.Machine
end

