-- ==== Sys2Proof/Laws/Ops.lean ====
section
/-! SUPPORT. What each shared operation can do, said once: the commit, the shapes of instructions, loads and stores. -/

namespace Sys2Proof.Machine

/-! ### The commit -/

/-- Register 0 of the register file after a commit. -/
theorem commitGpr_zero (g : Vector Word 32) (w : Option (Reg × Word)) : (commitGpr g w)[0] = 0#32 := by
  cases w <;> simp [commitGpr]

/-- Any other register of the register file after a commit. -/
theorem commitGpr_of_ne (g : Vector Word 32) (w : Option (Reg × Word)) {r : Reg} (h0 : r ≠ 0) :
    (commitGpr g w)[r] =
      match w with
      | some (q, v) => if r = q then v else g[r]
      | none => g[r] := by
  have h0' : (0 : Nat) ≠ r.val := fun h => h0 (Fin.ext h.symm)
  cases w with
  | none => simp [commitGpr, Vector.getElem_set_ne, h0']
  | some p =>
    obtain ⟨q, v⟩ := p
    by_cases hq : r = q
    · subst hq; simp [commitGpr, Vector.getElem_set_ne, h0']
    · have hq' : q.val ≠ r.val := fun h => hq (Fin.ext h.symm)
      simp [commitGpr, Vector.getElem_set_ne, h0', hq, hq']

/-- A register after a commit: register 0 reads zero, the register written reads its value, the others are unchanged. -/
theorem State.reg_commit (s : State) (e : Effects) (r : Reg) :
    (s.commit e).reg r =
      if r = 0 then 0#32
      else match e.gpr with
        | some (q, v) => if r = q then v else s.reg r
        | none => s.reg r := by
  by_cases h0 : r = 0
  · simp [State.reg, h0]
  · simp only [State.reg, h0, if_false]
    exact commitGpr_of_ne s.gpr e.gpr h0

/-- Register 0 holds zero after every commit. -/
theorem State.commit_reg0 (s : State) (e : Effects) : (s.commit e).gpr[0] = 0#32 := commitGpr_zero s.gpr e.gpr

/-- A commit without a register write leaves every register as it reads. -/
theorem State.reg_commit_none (s : State) {e : Effects} (h : e.gpr = none) : SameRegs s (s.commit e) := by
  intro r
  rw [State.reg_commit, h]
  by_cases h0 : r = 0 <;> simp [h0]

/-- A commit with a write of `rd` leaves every other register as it reads. -/
theorem State.reg_commit_but (s : State) {e : Effects} {rd : Reg} {v : Word} (h : e.gpr = some (rd, v)) :
    SameRegsBut rd s (s.commit e) := by
  intro r hr
  rw [State.reg_commit, h]
  by_cases h0 : r = 0 <;> simp [h0, hr]

/-- The register that a commit writes. -/
theorem State.reg_commit_self (s : State) {e : Effects} {rd : Reg} {v : Word} (h : e.gpr = some (rd, v)) :
    (s.commit e).reg rd = if rd = 0 then 0#32 else v := by
  rw [State.reg_commit, h]
  simp

theorem SameMemory.refl (s : State) : SameMemory s s := ⟨fun _ => rfl, rfl, rfl⟩

/-- A commit leaves memory alone. -/
theorem State.commit_sameMemory (s : State) (e : Effects) : SameMemory s (s.commit e) := ⟨fun _ => rfl, rfl, rfl⟩

/-! ### The shapes of instructions -/

/-- An instruction whose meaning is `writeReg`. -/
theorem WritesReg.intro {i : Instr} {s : State} {rd : Reg} {v : Word} (h : exec i s = writeReg s rd v) :
    WritesReg i s rd v :=
  ⟨_, h, s.reg_commit_self rfl, s.reg_commit_but rfl, ⟨rfl, rfl⟩, s.commit_sameMemory _, rfl, rfl⟩

/-- An instruction whose meaning is `writeHiLo`. -/
theorem WritesHiLo.intro {i : Instr} {s : State} {p : Word × Word} (h : exec i s = writeHiLo s p) :
    WritesHiLo i s p.1 p.2 :=
  ⟨_, h, rfl, rfl, s.reg_commit_none rfl, s.commit_sameMemory _, rfl, rfl⟩

/-- An instruction whose meaning is `branchIf`. -/
theorem Branches.intro {i : Instr} {s : State} {c : Bool} {taken : Prop} {target : Word} (hc : c = true ↔ taken)
    (h : exec i s = branchIf s c target) : Branches i s taken target := by
  refine ⟨_, h, fun ht => ⟨rfl, ?_⟩, fun ht => ⟨rfl, ?_⟩, s.reg_commit_none rfl, ⟨rfl, rfl⟩, s.commit_sameMemory _⟩
  · simp [hc.2 ht]
  · have : c = false := by
      cases c
      · rfl
      · exact absurd (hc.1 rfl) ht
    simp [this]

/-- An instruction whose meaning is `linkAndBranchIf`. -/
theorem BranchesAndLinks.intro {i : Instr} {s : State} {rd : Reg} {c : Bool} {taken : Prop} {target : Word}
    (hc : c = true ↔ taken) (h : exec i s = linkAndBranchIf s rd c target) :
    BranchesAndLinks i s rd taken target := by
  refine ⟨_, h, s.reg_commit_self rfl, fun ht => ⟨rfl, ?_⟩, fun ht => ⟨rfl, ?_⟩, s.reg_commit_but rfl, ⟨rfl, rfl⟩,
    s.commit_sameMemory _⟩
  · simp [hc.2 ht]
  · have : c = false := by
      cases c
      · rfl
      · exact absurd (hc.1 rfl) ht
    simp [this]

/-! ### Loads -/

/-- A load that is aligned and whose request is answered is a register write of what is taken from the word. -/
theorem load_of_answer {s : State} {rt : Reg} {ea : Word} {n : Nat} {f : Word → Word} (ha : ea.toNat % n = 0)
    (hr : s.mem.answer (.read (wordAddress ea)) = none) :
    load s rt ea n f = writeReg s rt (f (s.mem.word (wordAddress ea))) := by
  simp [load, misaligned_eq_false.2 ha, memReadWord, hr]

/-- Everything a load can answer. -/
theorem load_cases (s : State) (rt : Reg) (ea : Word) (n : Nat) (f : Word → Word) :
    (ea.toNat % n ≠ 0 ∧ load s rt ea n f = .fault .invalidAddress) ∨
      (ea.toNat % n = 0 ∧ ∃ status, s.mem.answer (.read (wordAddress ea)) = some status ∧
        load s rt ea n f = .fault (.memRead status)) ∨
      (ea.toNat % n = 0 ∧ s.mem.answer (.read (wordAddress ea)) = none ∧
        load s rt ea n f = .next (s.commit { gpr := some (rt, f (s.mem.word (wordAddress ea))) })) := by
  by_cases ha : ea.toNat % n = 0
  · cases hr : s.mem.answer (.read (wordAddress ea)) with
    | none => exact .inr (.inr ⟨ha, rfl, load_of_answer ha hr⟩)
    | some status => exact .inr (.inl ⟨ha, status, rfl, by simp [load, misaligned_eq_false.2 ha, memReadWord, hr, raise]⟩)
  · exact .inl ⟨ha, by simp [load, misaligned_eq_true.2 ha, raise]⟩

/-! ### Stores -/

/-- Everything the write request of a store can answer. -/
theorem storeWordAt_cases (s : State) (a v : Word) :
    (∃ status, s.mem.answer (.write a v) = some status ∧ storeWordAt s a v = .fault (.memWrite a status)) ∨
      (s.mem.answer (.write a v) = none ∧
        storeWordAt s a v = .next (State.commit { s with mem := s.mem.setWord a v } {})) := by
  cases hw : s.mem.answer (.write a v) with
  | none => exact .inr ⟨rfl, by simp [storeWordAt, memWriteWord, hw, complete]⟩
  | some status => exact .inl ⟨status, rfl, by simp [storeWordAt, memWriteWord, hw, raise]⟩

/-- Everything a byte or halfword store can answer. -/
theorem storeLane_cases (s : State) (ea : Word) (n : Nat) (f : Word → Word) :
    (ea.toNat % n ≠ 0 ∧ storeLane s ea n f = .fault .invalidAddress) ∨
      (ea.toNat % n = 0 ∧ ∃ status, s.mem.answer (.read (wordAddress ea)) = some status ∧
        storeLane s ea n f = .fault (.memRead status)) ∨
      (ea.toNat % n = 0 ∧ s.mem.answer (.read (wordAddress ea)) = none ∧
        storeLane s ea n f = storeWordAt s (wordAddress ea) (f (s.mem.word (wordAddress ea)))) := by
  by_cases ha : ea.toNat % n = 0
  · cases hr : s.mem.answer (.read (wordAddress ea)) with
    | none => exact .inr (.inr ⟨ha, rfl, by simp [storeLane, misaligned_eq_false.2 ha, memReadWord, hr]⟩)
    | some status =>
      exact .inr (.inl ⟨ha, status, rfl, by simp [storeLane, misaligned_eq_false.2 ha, memReadWord, hr, raise]⟩)
  · exact .inl ⟨ha, by simp [storeLane, misaligned_eq_true.2 ha, raise]⟩

/-- Everything a word store can answer. -/
theorem storeWord_cases (s : State) (ea v : Word) :
    (ea.toNat % 4 ≠ 0 ∧ storeWord s ea v = .fault .invalidAddress) ∨
      (ea.toNat % 4 = 0 ∧ storeWord s ea v = storeWordAt s ea v) := by
  by_cases ha : ea.toNat % 4 = 0
  · exact .inr ⟨ha, by simp [storeWord, misaligned_eq_false.2 ha]⟩
  · exact .inl ⟨ha, by simp [storeWord, misaligned_eq_true.2 ha, raise]⟩

/-- A commit after a write of memory: registers, `hi` and `lo` as before, the pair advanced. -/
theorem commit_withMem (s : State) (m : Memory) :
    SameRegs s (State.commit { s with mem := m } {}) ∧ SameHiLo s (State.commit { s with mem := m } {}) ∧
      Advances s (State.commit { s with mem := m } {}) := by
  refine ⟨fun r => ?_, ⟨rfl, rfl⟩, rfl, rfl⟩
  have h := State.reg_commit_none { s with mem := m } (e := {}) rfl r
  rw [h, State.withMem_reg]

/-! ### Requests -/

/-- The reference memory (20_memory.md R61): without requests that fail, a request is answered with Ok exactly when its
four bytes lie in the store. -/
theorem answer_of_no_errors {m : Memory} (h : m.errors = []) (r : Request) :
    m.answer r = if r.addr.toNat + 4 ≤ m.size then none else some .invalidAddress := by
  simp [Memory.answer, h]

end Sys2Proof.Machine
end

