-- ==== Sys2Proof/Laws/Step.lean ====
section
/-! SUPPORT. What fetching and a step can do. -/

namespace Sys2Proof.Machine

/-- Everything fetching can answer (40_execution_core.md R122 to R124). -/
theorem fetch_cases (s : State) :
    (s.pc.toNat % 4 ≠ 0 ∧ fetch s = .error .invalidAddress) ∨
      (s.pc.toNat % 4 = 0 ∧ ∃ status, s.mem.answer (.read s.pc) = some status ∧ fetch s = .error (.memRead status)) ∨
      (s.pc.toNat % 4 = 0 ∧ s.mem.answer (.read s.pc) = none ∧
        ((∃ e, decodeWord (s.mem.word s.pc) = .error e ∧ fetch s = .error .invalidInstruction) ∨
          (∃ i, decodeWord (s.mem.word s.pc) = .ok i ∧ fetch s = .ok i))) := by
  by_cases ha : s.pc.toNat % 4 = 0
  · cases hr : s.mem.answer (.read s.pc) with
    | some status =>
      exact .inr (.inl ⟨ha, status, rfl, by simp [fetch, misaligned_eq_false.2 ha, memReadWord, hr]⟩)
    | none =>
      refine .inr (.inr ⟨ha, rfl, ?_⟩)
      cases hd : decodeWord (s.mem.word s.pc) with
      | error e => exact .inl ⟨e, rfl, by simp [fetch, misaligned_eq_false.2 ha, memReadWord, hr, hd]⟩
      | ok i => exact .inr ⟨i, rfl, by simp [fetch, misaligned_eq_false.2 ha, memReadWord, hr, hd]⟩
  · exact .inl ⟨ha, by simp [fetch, misaligned_eq_true.2 ha]⟩

/-- A step that completes runs the instruction that is fetched. -/
theorem step_next {s t : State} (h : step s = .next t) : ∃ i, fetch s = .ok i ∧ exec i s = .next t := by
  unfold step at h
  cases hf : fetch s with
  | error f => simp [hf, raise] at h
  | ok i => exact ⟨i, rfl, by simpa [hf] using h⟩

/-- The step on an instruction that is fetched. -/
theorem step_of_fetch {s : State} {i : Instr} (h : fetch s = .ok i) : step s = exec i s := by
  simp [step, h]

/-- The step on a fetch that fails. -/
theorem step_of_fetch_error {s : State} {f : Fault} (h : fetch s = .error f) : step s = .fault f := by
  simp [step, h, raise]

/-- The word that `withFetchWord` places is the word the next fetch reads. -/
theorem withFetchWord_word (s : State) (nbits w : Nat) :
    (s.withFetchWord nbits w).mem.word (s.withFetchWord nbits w).pc = BitVec.ofNat 32 (w % 2 ^ nbits) := by
  simp [State.withFetchWord]

/-- Everything the step command can answer. -/
theorem stepCommand_cases (s : State) :
    (∃ t, step s = .next t ∧ stepCommand s = .ok (.success, t)) ∨
      (∃ f, step s = .fault f ∧ stepCommand s = .ok (f.status, s.afterFault f)) ∨
      (∃ r, step s = .refused r ∧ stepCommand s = .error r) := by
  unfold stepCommand
  cases h : step s with
  | next t => exact .inl ⟨t, rfl, rfl⟩
  | fault f => exact .inr (.inl ⟨f, rfl, rfl⟩)
  | refused r => exact .inr (.inr ⟨r, rfl, rfl⟩)

/-- No fault is returned as success. -/
theorem Fault.status_ne_success (f : Fault) : f.status ≠ .success := by
  cases f <;> simp [Fault.status]

end Sys2Proof.Machine
end

