-- ==== Sys2Proof/Laws/Exec.lean ====
section
/-! SUPPORT. What executing an instruction can do, said once for all instructions: the effects of one that completes,
and the cause of each fault. -/

namespace Sys2Proof.Machine

/-! ### Completing -/

/-- The effects with which an instruction completes: what its commit records, and the memory it leaves. -/
structure Completes (i : Instr) (s : State) (e : Effects) (m : Memory) : Prop where
  /-- the general register written is the destination -/
  gpr : e.gpr.map Prod.fst = destination i
  /-- only an instruction that may write them writes `hi` or `lo` -/
  hiLo : writesHiLo i = false → e.hi = none ∧ e.lo = none
  /-- the target recorded is the control transfer's -/
  target : e.target = controlTarget i s
  /-- only a store writes memory -/
  same : writesMemory i = false → m = s.mem
  /-- and a store writes the word that contains its effective address -/
  stored : writesMemory i = true → ∃ ea n v, memoryAccess i s = some (ea, n) ∧ ea.toNat % n = 0 ∧
    writtenWord i s = some v ∧ s.mem.answer (.write (wordAddress ea) v) = none ∧ m = s.mem.setWord (wordAddress ea) v

theorem writeReg_next {s t : State} {r : Reg} {v : Word} (h : writeReg s r v = .next t) :
    t = s.commit { gpr := some (r, v) } := by
  simpa [writeReg, complete, eq_comm] using h

theorem writeHiLo_next {s t : State} {p : Word × Word} (h : writeHiLo s p = .next t) :
    t = s.commit { hi := some p.1, lo := some p.2 } := by
  simpa [writeHiLo, complete, eq_comm] using h

theorem branchIf_next {s t : State} {c : Bool} {target : Word} (h : branchIf s c target = .next t) :
    t = s.commit { target := if c then some target else none } := by
  simpa [branchIf, complete, eq_comm] using h

theorem linkAndBranchIf_next {s t : State} {r : Reg} {c : Bool} {target : Word}
    (h : linkAndBranchIf s r c target = .next t) :
    t = s.commit { gpr := some (r, s.npc), target := if c then some target else none } := by
  simpa [linkAndBranchIf, complete, eq_comm] using h

theorem load_next {s t : State} {rt : Reg} {ea : Word} {n : Nat} {f : Word → Word} (h : load s rt ea n f = .next t) :
    ∃ v, t = s.commit { gpr := some (rt, v) } := by
  rcases load_cases s rt ea n f with ⟨-, e⟩ | ⟨-, st, -, e⟩ | ⟨-, -, e⟩ <;> rw [e] at h <;> cases h
  exact ⟨_, rfl⟩

theorem storeWordAt_next {s t : State} {a v : Word} (h : storeWordAt s a v = .next t) :
    s.mem.answer (.write a v) = none ∧ t = State.commit { s with mem := s.mem.setWord a v } {} := by
  rcases storeWordAt_cases s a v with ⟨st, -, e⟩ | ⟨hw, e⟩ <;> rw [e] at h <;> cases h
  exact ⟨hw, rfl⟩

theorem storeLane_next {s t : State} {ea : Word} {n : Nat} {f : Word → Word} (h : storeLane s ea n f = .next t) :
    ea.toNat % n = 0 ∧ s.mem.answer (.write (wordAddress ea) (f (s.mem.word (wordAddress ea)))) = none ∧
      t = State.commit { s with mem := s.mem.setWord (wordAddress ea) (f (s.mem.word (wordAddress ea))) } {} := by
  rcases storeLane_cases s ea n f with ⟨-, e⟩ | ⟨-, st, -, e⟩ | ⟨ha, -, e⟩ <;> rw [e] at h
  · cases h
  · cases h
  · exact ⟨ha, storeWordAt_next h⟩

theorem storeWord_next {s t : State} {ea v : Word} (h : storeWord s ea v = .next t) :
    ea.toNat % 4 = 0 ∧ s.mem.answer (.write (wordAddress ea) v) = none ∧
      t = State.commit { s with mem := s.mem.setWord (wordAddress ea) v } {} := by
  rcases storeWord_cases s ea v with ⟨-, e⟩ | ⟨ha, e⟩ <;> rw [e] at h
  · cases h
  · rw [wordAddress_of_aligned ha]
    exact ⟨ha, storeWordAt_next h⟩

/-- A commit that writes one register. -/
theorem completes_writeReg {i : Instr} {s t : State} {r : Reg} {v : Word} (hd : destination i = some r)
    (hc : controlTarget i s = none) (hm : writesMemory i = false) (h : t = s.commit { gpr := some (r, v) }) :
    ∃ e m, t = State.commit { s with mem := m } e ∧ Completes i s e m :=
  ⟨_, s.mem, h, by simp [hd], fun _ => ⟨rfl, rfl⟩, by simp [hc], fun _ => rfl, fun w => by simp [hm] at w⟩

/-- A commit that writes `hi`, `lo` or both. -/
theorem completes_hiLo {i : Instr} {s t : State} {a b : Option Word} (hd : destination i = none)
    (hc : controlTarget i s = none) (hm : writesMemory i = false) (hw : writesHiLo i = true)
    (h : t = s.commit { hi := a, lo := b }) : ∃ e m, t = State.commit { s with mem := m } e ∧ Completes i s e m :=
  ⟨_, s.mem, h, by simp [hd], fun w => by simp [hw] at w, by simp [hc], fun _ => rfl, fun w => by simp [hm] at w⟩

/-- A commit that records a target, with or without a link. -/
theorem completes_branch {i : Instr} {s t : State} {g : Option (Reg × Word)} {x : Option Word}
    (hd : destination i = g.map Prod.fst) (hc : controlTarget i s = x) (hm : writesMemory i = false)
    (h : t = s.commit { gpr := g, target := x }) : ∃ e m, t = State.commit { s with mem := m } e ∧ Completes i s e m :=
  ⟨_, s.mem, h, by simp [hd], fun _ => ⟨rfl, rfl⟩, by simp [hc], fun _ => rfl, fun w => by simp [hm] at w⟩

/-- A commit after a store. -/
theorem completes_store {i : Instr} {s t : State} {ea v : Word} {n : Nat} (hd : destination i = none)
    (hc : controlTarget i s = none) (hm : writesMemory i = true) (ha : memoryAccess i s = some (ea, n))
    (hv : writtenWord i s = some v)
    (h : ea.toNat % n = 0 ∧ s.mem.answer (.write (wordAddress ea) v) = none ∧
      t = State.commit { s with mem := s.mem.setWord (wordAddress ea) v } {}) :
    ∃ e m, t = State.commit { s with mem := m } e ∧ Completes i s e m :=
  ⟨_, _, h.2.2, by simp [hd], fun _ => ⟨rfl, rfl⟩, by simp [hc], fun w => by simp [hm] at w,
    fun _ => ⟨ea, n, v, ha, h.1, hv, h.2.1, rfl⟩⟩

/-- Everything an instruction that completes can do. -/
theorem exec_next {i : Instr} {s t : State} (h : exec i s = .next t) :
    ∃ e m, t = State.commit { s with mem := m } e ∧ Completes i s e m := by
  cases i with
  | add rd rs rt =>
    simp only [exec, execAdd] at h
    split at h
    · cases h
    · exact completes_writeReg rfl rfl rfl (writeReg_next h)
  | sub rd rs rt =>
    simp only [exec, execSub] at h
    split at h
    · cases h
    · exact completes_writeReg rfl rfl rfl (writeReg_next h)
  | addi rt rs imm =>
    simp only [exec, execAddi] at h
    split at h
    · cases h
    · exact completes_writeReg rfl rfl rfl (writeReg_next h)
  | addu rd rs rt => exact completes_writeReg rfl rfl rfl (writeReg_next h)
  | subu rd rs rt => exact completes_writeReg rfl rfl rfl (writeReg_next h)
  | and rd rs rt => exact completes_writeReg rfl rfl rfl (writeReg_next h)
  | or rd rs rt => exact completes_writeReg rfl rfl rfl (writeReg_next h)
  | xor rd rs rt => exact completes_writeReg rfl rfl rfl (writeReg_next h)
  | slt rd rs rt => exact completes_writeReg rfl rfl rfl (writeReg_next h)
  | sltu rd rs rt => exact completes_writeReg rfl rfl rfl (writeReg_next h)
  | sll rd rt sa => exact completes_writeReg rfl rfl rfl (writeReg_next h)
  | srl rd rt sa => exact completes_writeReg rfl rfl rfl (writeReg_next h)
  | sra rd rt sa => exact completes_writeReg rfl rfl rfl (writeReg_next h)
  | sllv rd rt rs => exact completes_writeReg rfl rfl rfl (writeReg_next h)
  | srlv rd rt rs => exact completes_writeReg rfl rfl rfl (writeReg_next h)
  | srav rd rt rs => exact completes_writeReg rfl rfl rfl (writeReg_next h)
  | mfhi rd => exact completes_writeReg rfl rfl rfl (writeReg_next h)
  | mflo rd => exact completes_writeReg rfl rfl rfl (writeReg_next h)
  | addiu rt rs imm => exact completes_writeReg rfl rfl rfl (writeReg_next h)
  | slti rt rs imm => exact completes_writeReg rfl rfl rfl (writeReg_next h)
  | sltiu rt rs imm => exact completes_writeReg rfl rfl rfl (writeReg_next h)
  | andi rt rs imm => exact completes_writeReg rfl rfl rfl (writeReg_next h)
  | ori rt rs imm => exact completes_writeReg rfl rfl rfl (writeReg_next h)
  | xori rt rs imm => exact completes_writeReg rfl rfl rfl (writeReg_next h)
  | lui rt imm => exact completes_writeReg rfl rfl rfl (writeReg_next h)
  | mult rs rt => exact completes_hiLo rfl rfl rfl rfl (writeHiLo_next h)
  | multu rs rt => exact completes_hiLo rfl rfl rfl rfl (writeHiLo_next h)
  | div rs rt =>
    simp only [exec, execDiv] at h
    split at h
    · cases h
    · exact completes_hiLo rfl rfl rfl rfl (writeHiLo_next h)
  | divu rs rt =>
    simp only [exec, execDivu] at h
    split at h
    · cases h
    · exact completes_hiLo rfl rfl rfl rfl (writeHiLo_next h)
  | mthi rs => exact completes_hiLo rfl rfl rfl rfl (by simpa [exec, execMthi, complete, eq_comm] using h)
  | mtlo rs => exact completes_hiLo rfl rfl rfl rfl (by simpa [exec, execMtlo, complete, eq_comm] using h)
  | jr rs => exact completes_branch rfl rfl rfl (branchIf_next h)
  | jalr rd rs => exact completes_branch rfl rfl rfl (linkAndBranchIf_next h)
  | j index => exact completes_branch rfl rfl rfl (branchIf_next h)
  | jal index => exact completes_branch rfl rfl rfl (linkAndBranchIf_next h)
  | bltz rs offset => exact completes_branch rfl (by simp [controlTarget, isNegative]) rfl (branchIf_next h)
  | bgez rs offset => exact completes_branch rfl (by simp [controlTarget, isNonNegative]) rfl (branchIf_next h)
  | bltzal rs offset => exact completes_branch rfl (by simp [controlTarget, isNegative]) rfl (linkAndBranchIf_next h)
  | bgezal rs offset =>
    exact completes_branch rfl (by simp [controlTarget, isNonNegative]) rfl (linkAndBranchIf_next h)
  | beq rs rt offset => exact completes_branch rfl (by simp [controlTarget]) rfl (branchIf_next h)
  | bne rs rt offset => exact completes_branch rfl (by simp [controlTarget]) rfl (branchIf_next h)
  | blez rs offset => exact completes_branch rfl (by simp [controlTarget, isNonPositive]) rfl (branchIf_next h)
  | bgtz rs offset => exact completes_branch rfl (by simp [controlTarget, isPositive]) rfl (branchIf_next h)
  | lb rt base offset => exact completes_writeReg rfl rfl rfl (load_next h).choose_spec
  | lbu rt base offset => exact completes_writeReg rfl rfl rfl (load_next h).choose_spec
  | lh rt base offset => exact completes_writeReg rfl rfl rfl (load_next h).choose_spec
  | lhu rt base offset => exact completes_writeReg rfl rfl rfl (load_next h).choose_spec
  | lw rt base offset => exact completes_writeReg rfl rfl rfl (load_next h).choose_spec
  | lwl rt base offset => exact completes_writeReg rfl rfl rfl (load_next h).choose_spec
  | lwr rt base offset => exact completes_writeReg rfl rfl rfl (load_next h).choose_spec
  | sb rt base offset => exact completes_store rfl rfl rfl rfl rfl (storeLane_next h)
  | sh rt base offset => exact completes_store rfl rfl rfl rfl rfl (storeLane_next h)
  | sw rt base offset => exact completes_store rfl rfl rfl rfl rfl (storeWord_next h)

/-! ### Faults -/

/-- The causes of the faults an instruction can end with, after its fetch. -/
def Causes (i : Instr) (s : State) : Fault → Prop
  | .arithmeticOverflow =>
    (∃ rd rs rt, i = .add rd rs rt ∧ addOverflows (s.reg rs) (s.reg rt) = true) ∨
      (∃ rd rs rt, i = .sub rd rs rt ∧ subOverflows (s.reg rs) (s.reg rt) = true) ∨
      (∃ rt rs imm, i = .addi rt rs imm ∧ addOverflows (s.reg rs) (signImm imm) = true)
  | .invalidInstruction => (∃ rs rt, i = .div rs rt ∧ s.reg rt = 0#32) ∨ (∃ rs rt, i = .divu rs rt ∧ s.reg rt = 0#32)
  | .invalidAddress => ∃ ea n, memoryAccess i s = some (ea, n) ∧ ea.toNat % n ≠ 0
  | .memRead status =>
    ∃ ea n, memoryAccess i s = some (ea, n) ∧ readsMemory i = true ∧ ea.toNat % n = 0 ∧
      s.mem.answer (.read (wordAddress ea)) = some status
  | .memWrite a status =>
    ∃ ea n v, memoryAccess i s = some (ea, n) ∧ writtenWord i s = some v ∧ ea.toNat % n = 0 ∧ a = wordAddress ea ∧
      (readsMemory i = true → s.mem.answer (.read a) = none) ∧ s.mem.answer (.write a v) = some status

theorem load_fault {i : Instr} {s : State} {f : Fault} {rt : Reg} {ea : Word} {n : Nat} {g : Word → Word}
    (ha : memoryAccess i s = some (ea, n)) (hr : readsMemory i = true) (h : load s rt ea n g = .fault f) :
    Causes i s f := by
  rcases load_cases s rt ea n g with ⟨hn, e⟩ | ⟨hn, st, hs, e⟩ | ⟨-, -, e⟩ <;> rw [e] at h <;> cases h
  · exact ⟨ea, n, ha, hn⟩
  · exact ⟨ea, n, ha, hr, hn, hs⟩

theorem storeLane_fault {i : Instr} {s : State} {f : Fault} {ea : Word} {n : Nat} {g : Word → Word}
    (ha : memoryAccess i s = some (ea, n)) (hr : readsMemory i = true)
    (hw : writtenWord i s = some (g (s.mem.word (wordAddress ea)))) (h : storeLane s ea n g = .fault f) :
    Causes i s f := by
  rcases storeLane_cases s ea n g with ⟨hn, e⟩ | ⟨hn, st, hs, e⟩ | ⟨hn, ho, e⟩ <;> rw [e] at h
  · cases h
    exact ⟨ea, n, ha, hn⟩
  · cases h
    exact ⟨ea, n, ha, hr, hn, hs⟩
  · rcases storeWordAt_cases s (wordAddress ea) (g (s.mem.word (wordAddress ea))) with ⟨st, hs, e⟩ | ⟨-, e⟩ <;>
      rw [e] at h <;> cases h
    exact ⟨ea, n, _, ha, hw, hn, rfl, fun _ => ho, hs⟩

theorem storeWord_fault {i : Instr} {s : State} {f : Fault} {ea v : Word} (ha : memoryAccess i s = some (ea, 4))
    (hr : readsMemory i = false) (hw : writtenWord i s = some v) (h : storeWord s ea v = .fault f) : Causes i s f := by
  rcases storeWord_cases s ea v with ⟨hn, e⟩ | ⟨hn, e⟩ <;> rw [e] at h
  · cases h
    exact ⟨ea, 4, ha, hn⟩
  · rcases storeWordAt_cases s ea v with ⟨st, hs, e⟩ | ⟨-, e⟩ <;> rw [e] at h <;> cases h
    exact ⟨ea, 4, v, ha, hw, hn, (wordAddress_of_aligned hn).symm, fun w => by simp [hr] at w, hs⟩

/-- Everything that makes an instruction end with a fault. -/
theorem exec_fault {i : Instr} {s : State} {f : Fault} (h : exec i s = .fault f) : Causes i s f := by
  cases i with
  | add rd rs rt =>
    simp only [exec, execAdd] at h
    split at h <;> cases h
    exact .inl ⟨rd, rs, rt, rfl, ‹_›⟩
  | sub rd rs rt =>
    simp only [exec, execSub] at h
    split at h <;> cases h
    exact .inr (.inl ⟨rd, rs, rt, rfl, ‹_›⟩)
  | addi rt rs imm =>
    simp only [exec, execAddi] at h
    split at h <;> cases h
    exact .inr (.inr ⟨rt, rs, imm, rfl, ‹_›⟩)
  | div rs rt =>
    simp only [exec, execDiv] at h
    split at h <;> cases h
    exact .inl ⟨rs, rt, rfl, ‹_›⟩
  | divu rs rt =>
    simp only [exec, execDivu] at h
    split at h <;> cases h
    exact .inr ⟨rs, rt, rfl, ‹_›⟩
  | lb rt base offset => exact load_fault rfl rfl h
  | lbu rt base offset => exact load_fault rfl rfl h
  | lh rt base offset => exact load_fault rfl rfl h
  | lhu rt base offset => exact load_fault rfl rfl h
  | lw rt base offset => exact load_fault rfl rfl h
  | lwl rt base offset => exact load_fault rfl rfl h
  | lwr rt base offset => exact load_fault rfl rfl h
  | sb rt base offset => exact storeLane_fault rfl rfl rfl h
  | sh rt base offset => exact storeLane_fault rfl rfl rfl h
  | sw rt base offset => exact storeWord_fault rfl rfl rfl h
  | _ => cases h

end Sys2Proof.Machine
end

