-- ==== Sys2Proof/Laws/PerInstr.lean ====
section
/-! SUPPORT. One lemma for each instruction: its operands fit the fields that carry them (30_encoding.md R91, R97). -/

namespace Sys2Proof.Laws.OperandFields

/-- The family's statement: the instruction is well formed. -/
def Statement (i : Instr) : Prop := i.wf = true

/-! ### The operand lists of the formats -/

/-- The number of a register fits a field five bits wide. -/
theorem reg_fits (r : Reg) (f : Field) (h : f.width = 5) : f.fits r.val = true := by
  simp [Field.fits, h]

/-- The number in a bit vector fits a field of its width. -/
theorem bits_fit {n : Nat} (v : BitVec n) (f : Field) (h : f.width = n) : f.fits v.toNat = true := by
  simp [Field.fits, h, v.isLt]

/-- One operand. -/
theorem one {f : Field} {a : Nat} (ha : f.fits a = true) : operandsFit [(f, a)] = true := by
  simp [operandsFit, ha]

/-- Two operands in different fields. -/
theorem two {f g : Field} {a b : Nat} (hn : [f, g].Nodup) (ha : f.fits a = true) (hb : g.fits b = true) :
    operandsFit [(f, a), (g, b)] = true := by
  simpa [operandsFit, ha, hb] using hn

/-- Three operands in different fields. -/
theorem three {f g h : Field} {a b c : Nat} (hn : [f, g, h].Nodup) (ha : f.fits a = true) (hb : g.fits b = true)
    (hc : h.fits c = true) : operandsFit [(f, a), (g, b), (h, c)] = true := by
  simpa [operandsFit, ha, hb, hc] using hn

/-! ### The instructions -/

theorem add (rd rs rt : Reg) : Statement (.add rd rs rt) :=
  three (by decide) (reg_fits rs .rs rfl) (reg_fits rt .rt rfl) (reg_fits rd .rd rfl)

theorem addu (rd rs rt : Reg) : Statement (.addu rd rs rt) :=
  three (by decide) (reg_fits rs .rs rfl) (reg_fits rt .rt rfl) (reg_fits rd .rd rfl)

theorem sub (rd rs rt : Reg) : Statement (.sub rd rs rt) :=
  three (by decide) (reg_fits rs .rs rfl) (reg_fits rt .rt rfl) (reg_fits rd .rd rfl)

theorem subu (rd rs rt : Reg) : Statement (.subu rd rs rt) :=
  three (by decide) (reg_fits rs .rs rfl) (reg_fits rt .rt rfl) (reg_fits rd .rd rfl)

theorem and (rd rs rt : Reg) : Statement (.and rd rs rt) :=
  three (by decide) (reg_fits rs .rs rfl) (reg_fits rt .rt rfl) (reg_fits rd .rd rfl)

theorem or (rd rs rt : Reg) : Statement (.or rd rs rt) :=
  three (by decide) (reg_fits rs .rs rfl) (reg_fits rt .rt rfl) (reg_fits rd .rd rfl)

theorem xor (rd rs rt : Reg) : Statement (.xor rd rs rt) :=
  three (by decide) (reg_fits rs .rs rfl) (reg_fits rt .rt rfl) (reg_fits rd .rd rfl)

theorem slt (rd rs rt : Reg) : Statement (.slt rd rs rt) :=
  three (by decide) (reg_fits rs .rs rfl) (reg_fits rt .rt rfl) (reg_fits rd .rd rfl)

theorem sltu (rd rs rt : Reg) : Statement (.sltu rd rs rt) :=
  three (by decide) (reg_fits rs .rs rfl) (reg_fits rt .rt rfl) (reg_fits rd .rd rfl)

theorem sll (rd rt : Reg) (sa : BitVec 5) : Statement (.sll rd rt sa) :=
  three (by decide) (reg_fits rt .rt rfl) (reg_fits rd .rd rfl) (bits_fit sa .sa rfl)

theorem srl (rd rt : Reg) (sa : BitVec 5) : Statement (.srl rd rt sa) :=
  three (by decide) (reg_fits rt .rt rfl) (reg_fits rd .rd rfl) (bits_fit sa .sa rfl)

theorem sra (rd rt : Reg) (sa : BitVec 5) : Statement (.sra rd rt sa) :=
  three (by decide) (reg_fits rt .rt rfl) (reg_fits rd .rd rfl) (bits_fit sa .sa rfl)

theorem sllv (rd rt rs : Reg) : Statement (.sllv rd rt rs) :=
  three (by decide) (reg_fits rs .rs rfl) (reg_fits rt .rt rfl) (reg_fits rd .rd rfl)

theorem srlv (rd rt rs : Reg) : Statement (.srlv rd rt rs) :=
  three (by decide) (reg_fits rs .rs rfl) (reg_fits rt .rt rfl) (reg_fits rd .rd rfl)

theorem srav (rd rt rs : Reg) : Statement (.srav rd rt rs) :=
  three (by decide) (reg_fits rs .rs rfl) (reg_fits rt .rt rfl) (reg_fits rd .rd rfl)

theorem mult (rs rt : Reg) : Statement (.mult rs rt) :=
  two (by decide) (reg_fits rs .rs rfl) (reg_fits rt .rt rfl)

theorem multu (rs rt : Reg) : Statement (.multu rs rt) :=
  two (by decide) (reg_fits rs .rs rfl) (reg_fits rt .rt rfl)

theorem div (rs rt : Reg) : Statement (.div rs rt) :=
  two (by decide) (reg_fits rs .rs rfl) (reg_fits rt .rt rfl)

theorem divu (rs rt : Reg) : Statement (.divu rs rt) :=
  two (by decide) (reg_fits rs .rs rfl) (reg_fits rt .rt rfl)

theorem mfhi (rd : Reg) : Statement (.mfhi rd) :=
  one (reg_fits rd .rd rfl)

theorem mflo (rd : Reg) : Statement (.mflo rd) :=
  one (reg_fits rd .rd rfl)

theorem mthi (rs : Reg) : Statement (.mthi rs) :=
  one (reg_fits rs .rs rfl)

theorem mtlo (rs : Reg) : Statement (.mtlo rs) :=
  one (reg_fits rs .rs rfl)

theorem jr (rs : Reg) : Statement (.jr rs) :=
  one (reg_fits rs .rs rfl)

theorem jalr (rd rs : Reg) : Statement (.jalr rd rs) :=
  two (by decide) (reg_fits rs .rs rfl) (reg_fits rd .rd rfl)

theorem bltz (rs : Reg) (offset : Half) : Statement (.bltz rs offset) :=
  two (by decide) (reg_fits rs .rs rfl) (bits_fit offset .imm rfl)

theorem bgez (rs : Reg) (offset : Half) : Statement (.bgez rs offset) :=
  two (by decide) (reg_fits rs .rs rfl) (bits_fit offset .imm rfl)

theorem bltzal (rs : Reg) (offset : Half) : Statement (.bltzal rs offset) :=
  two (by decide) (reg_fits rs .rs rfl) (bits_fit offset .imm rfl)

theorem bgezal (rs : Reg) (offset : Half) : Statement (.bgezal rs offset) :=
  two (by decide) (reg_fits rs .rs rfl) (bits_fit offset .imm rfl)

theorem j (index : BitVec 26) : Statement (.j index) :=
  one (bits_fit index .index rfl)

theorem jal (index : BitVec 26) : Statement (.jal index) :=
  one (bits_fit index .index rfl)

theorem beq (rs rt : Reg) (offset : Half) : Statement (.beq rs rt offset) :=
  three (by decide) (reg_fits rs .rs rfl) (reg_fits rt .rt rfl) (bits_fit offset .imm rfl)

theorem bne (rs rt : Reg) (offset : Half) : Statement (.bne rs rt offset) :=
  three (by decide) (reg_fits rs .rs rfl) (reg_fits rt .rt rfl) (bits_fit offset .imm rfl)

theorem blez (rs : Reg) (offset : Half) : Statement (.blez rs offset) :=
  two (by decide) (reg_fits rs .rs rfl) (bits_fit offset .imm rfl)

theorem bgtz (rs : Reg) (offset : Half) : Statement (.bgtz rs offset) :=
  two (by decide) (reg_fits rs .rs rfl) (bits_fit offset .imm rfl)

theorem addi (rt rs : Reg) (imm : Half) : Statement (.addi rt rs imm) :=
  three (by decide) (reg_fits rs .rs rfl) (reg_fits rt .rt rfl) (bits_fit imm .imm rfl)

theorem addiu (rt rs : Reg) (imm : Half) : Statement (.addiu rt rs imm) :=
  three (by decide) (reg_fits rs .rs rfl) (reg_fits rt .rt rfl) (bits_fit imm .imm rfl)

theorem slti (rt rs : Reg) (imm : Half) : Statement (.slti rt rs imm) :=
  three (by decide) (reg_fits rs .rs rfl) (reg_fits rt .rt rfl) (bits_fit imm .imm rfl)

theorem sltiu (rt rs : Reg) (imm : Half) : Statement (.sltiu rt rs imm) :=
  three (by decide) (reg_fits rs .rs rfl) (reg_fits rt .rt rfl) (bits_fit imm .imm rfl)

theorem andi (rt rs : Reg) (imm : Half) : Statement (.andi rt rs imm) :=
  three (by decide) (reg_fits rs .rs rfl) (reg_fits rt .rt rfl) (bits_fit imm .imm rfl)

theorem ori (rt rs : Reg) (imm : Half) : Statement (.ori rt rs imm) :=
  three (by decide) (reg_fits rs .rs rfl) (reg_fits rt .rt rfl) (bits_fit imm .imm rfl)

theorem xori (rt rs : Reg) (imm : Half) : Statement (.xori rt rs imm) :=
  three (by decide) (reg_fits rs .rs rfl) (reg_fits rt .rt rfl) (bits_fit imm .imm rfl)

theorem lui (rt : Reg) (imm : Half) : Statement (.lui rt imm) :=
  two (by decide) (reg_fits rt .rt rfl) (bits_fit imm .imm rfl)

theorem lb (rt base : Reg) (offset : Half) : Statement (.lb rt base offset) :=
  three (by decide) (reg_fits base .rs rfl) (reg_fits rt .rt rfl) (bits_fit offset .imm rfl)

theorem lbu (rt base : Reg) (offset : Half) : Statement (.lbu rt base offset) :=
  three (by decide) (reg_fits base .rs rfl) (reg_fits rt .rt rfl) (bits_fit offset .imm rfl)

theorem lh (rt base : Reg) (offset : Half) : Statement (.lh rt base offset) :=
  three (by decide) (reg_fits base .rs rfl) (reg_fits rt .rt rfl) (bits_fit offset .imm rfl)

theorem lhu (rt base : Reg) (offset : Half) : Statement (.lhu rt base offset) :=
  three (by decide) (reg_fits base .rs rfl) (reg_fits rt .rt rfl) (bits_fit offset .imm rfl)

theorem lw (rt base : Reg) (offset : Half) : Statement (.lw rt base offset) :=
  three (by decide) (reg_fits base .rs rfl) (reg_fits rt .rt rfl) (bits_fit offset .imm rfl)

theorem lwl (rt base : Reg) (offset : Half) : Statement (.lwl rt base offset) :=
  three (by decide) (reg_fits base .rs rfl) (reg_fits rt .rt rfl) (bits_fit offset .imm rfl)

theorem lwr (rt base : Reg) (offset : Half) : Statement (.lwr rt base offset) :=
  three (by decide) (reg_fits base .rs rfl) (reg_fits rt .rt rfl) (bits_fit offset .imm rfl)

theorem sb (rt base : Reg) (offset : Half) : Statement (.sb rt base offset) :=
  three (by decide) (reg_fits base .rs rfl) (reg_fits rt .rt rfl) (bits_fit offset .imm rfl)

theorem sh (rt base : Reg) (offset : Half) : Statement (.sh rt base offset) :=
  three (by decide) (reg_fits base .rs rfl) (reg_fits rt .rt rfl) (bits_fit offset .imm rfl)

theorem sw (rt base : Reg) (offset : Half) : Statement (.sw rt base offset) :=
  three (by decide) (reg_fits base .rs rfl) (reg_fits rt .rt rfl) (bits_fit offset .imm rfl)

end Sys2Proof.Laws.OperandFields
end

