-- ==== Sys2Proof/Tests/Slice0.lean ====
section
/-! SUPPORT. Tests: the well-formedness checks refuse ill-formed operands; words written out from the spec's encodings
decode to the instructions they stand for; single steps against 95_test_vectors.md; and for each statement with
hypotheses a concrete state that meets them. Expected values come from spec/, the vector's id stands beside them. -/

namespace Sys2Proof.Tests

open Sys2Proof Sys2Proof.Machine

/-! ### Helpers -/

/-- A memory of 0x10000 bytes with these words (95_test_vectors.md: `P_MEM_SIZE = 0x10000`). -/
def memWith (words : List (Word × Word)) : Memory :=
  words.foldl (fun m p => m.setWord p.1 p.2) { Memory.atReset with size := 0x10000 }

/-- The base state of 95_test_vectors.md with an instruction word at `pc`, these registers, and the memory words of its
section 8. -/
def base (w : Word) (regs : List (Reg × Word)) : State :=
  { State.reset with
    gpr := regs.foldl (fun g p => g.set p.1 p.2) State.reset.gpr
    pc := 0x100
    npc := 0x104
    mem := memWith [(0x100, w), (0x200, 0x8001FE7F), (0x204, 0x11223344)] }

/-- The base state with requests that the memory answers with a status of its own. -/
def withErrors (w : Word) (regs : List (Reg × Word)) (errors : List MemError) : State :=
  { base w regs with mem := { (base w regs).mem with errors := errors } }

/-- The outcome is a next state with this property. -/
def nextIs (o : StepOutcome) (p : State → Bool) : Bool :=
  match o with
  | .next t => p t
  | _ => false

/-- The outcome is this fault. -/
def faultIs (o : StepOutcome) (f : Fault) : Bool :=
  match o with
  | .fault g => g == f
  | _ => false

/-- After one step from this start register `r` holds `v`, and the pair has advanced. -/
def gives (w : Word) (regs : List (Reg × Word)) (r : Reg) (v : Word) : Bool :=
  nextIs (step (base w regs)) (fun t => t.reg r == v && t.pc == 0x104 && t.npc == 0x108)

/-- After one step from this start `hi` and `lo` hold these values. -/
def givesHiLo (w : Word) (regs : List (Reg × Word)) (hi lo : Word) : Bool :=
  nextIs (step (base w regs)) (fun t => t.hi == hi && t.lo == lo && t.npc == 0x108)

/-- After one step from this start `npc` holds this address. -/
def goes (w : Word) (regs : List (Reg × Word)) (target : Word) : Bool :=
  nextIs (step (base w regs)) (fun t => t.pc == 0x104 && t.npc == target)

/-- After one step from this start `npc` and a linked register hold these values. -/
def links (w : Word) (regs : List (Reg × Word)) (r : Reg) (link target : Word) : Bool :=
  nextIs (step (base w regs)) (fun t => t.reg r == link && t.pc == 0x104 && t.npc == target)

/-- After one step from this start the word at an address holds this value. -/
def stores (w : Word) (regs : List (Reg × Word)) (a v : Word) : Bool :=
  nextIs (step (base w regs)) (fun t => t.mem.word a == v && t.npc == 0x108)

/-- One step from this start ends with this fault. -/
def faults (w : Word) (regs : List (Reg × Word)) (f : Fault) : Bool := faultIs (step (base w regs)) f

theorem next_of_nextIs {o : StepOutcome} {p : State → Bool} (h : nextIs o p = true) : ∃ t, o = .next t ∧ p t = true := by
  cases o with
  | next t => exact ⟨t, rfl, h⟩
  | fault f => cases h
  | refused r => cases h

/-- A word decodes to this instruction, and this instruction encodes to it. -/
def reads (w : Nat) (i : Instr) : Bool :=
  decodeTableWord 32 w == some i && encode i == BitVec.ofNat 32 w

/-! ### Well-formedness: each check refuses an ill-formed operand (30_encoding.md R91, R108) -/

theorem test_wf_refuses_wide_op : Field.fits .op 64 = false := by decide
theorem test_wf_refuses_wide_rs : operandsFit [(.rs, 32)] = false := by decide
theorem test_wf_refuses_wide_rt : operandsFit [(.rs, 1), (.rt, 32)] = false := by decide
theorem test_wf_refuses_wide_rd : operandsFit [(.rs, 1), (.rt, 2), (.rd, 32)] = false := by decide
theorem test_wf_refuses_wide_sa : operandsFit [(.rt, 1), (.rd, 2), (.sa, 32)] = false := by decide
theorem test_wf_refuses_wide_funct : Field.fits .funct 64 = false := by decide
theorem test_wf_refuses_wide_imm : operandsFit [(.rs, 1), (.imm, 65536)] = false := by decide
theorem test_wf_refuses_wide_index : operandsFit [(.index, 67108864)] = false := by decide
theorem test_wf_refuses_a_field_given_twice : operandsFit [(.rs, 1), (.rs, 1)] = false := by decide
theorem test_wf_takes_the_largest_values :
    operandsFit [(.rs, 31), (.rt, 31), (.imm, 65535)] = true ∧ operandsFit [(.index, 67108863)] = true ∧
      Instr.wf (.sll 31 31 31#5) = true := by decide

/-! ### Decoding: words written out bit by bit from 30_encoding.md R92 to R95 and R101 to R103 -/

/-- ADD to SLTU: rs 1, rt 2, rd 3. -/
theorem test_decode_arithmetic :
    reads 0b000000_00001_00010_00011_00000_100000 (.add 3 1 2) = true ∧
    reads 0b000000_00001_00010_00011_00000_100001 (.addu 3 1 2) = true ∧
    reads 0b000000_00001_00010_00011_00000_100010 (.sub 3 1 2) = true ∧
    reads 0b000000_00001_00010_00011_00000_100011 (.subu 3 1 2) = true ∧
    reads 0b000000_00001_00010_00011_00000_100100 (.and 3 1 2) = true ∧
    reads 0b000000_00001_00010_00011_00000_100101 (.or 3 1 2) = true ∧
    reads 0b000000_00001_00010_00011_00000_100110 (.xor 3 1 2) = true ∧
    reads 0b000000_00001_00010_00011_00000_101010 (.slt 3 1 2) = true ∧
    reads 0b000000_00001_00010_00011_00000_101011 (.sltu 3 1 2) = true := by decide

/-- Fixed shifts: rt 2, rd 3, sa 17; variable shifts: rs 1, rt 2, rd 3. -/
theorem test_decode_shifts :
    reads 0b000000_00000_00010_00011_10001_000000 (.sll 3 2 17#5) = true ∧
    reads 0b000000_00000_00010_00011_10001_000010 (.srl 3 2 17#5) = true ∧
    reads 0b000000_00000_00010_00011_10001_000011 (.sra 3 2 17#5) = true ∧
    reads 0b000000_00001_00010_00011_00000_000100 (.sllv 3 2 1) = true ∧
    reads 0b000000_00001_00010_00011_00000_000110 (.srlv 3 2 1) = true ∧
    reads 0b000000_00001_00010_00011_00000_000111 (.srav 3 2 1) = true := by decide

/-- Multiply, divide, accumulator transfers. -/
theorem test_decode_hi_lo :
    reads 0b000000_00001_00010_00000_00000_011000 (.mult 1 2) = true ∧
    reads 0b000000_00001_00010_00000_00000_011001 (.multu 1 2) = true ∧
    reads 0b000000_00001_00010_00000_00000_011010 (.div 1 2) = true ∧
    reads 0b000000_00001_00010_00000_00000_011011 (.divu 1 2) = true ∧
    reads 0b000000_00000_00000_00011_00000_010000 (.mfhi 3) = true ∧
    reads 0b000000_00000_00000_00011_00000_010010 (.mflo 3) = true ∧
    reads 0b000000_00001_00000_00000_00000_010001 (.mthi 1) = true ∧
    reads 0b000000_00001_00000_00000_00000_010011 (.mtlo 1) = true := by decide

/-- JR and JALR. -/
theorem test_decode_register_jumps :
    reads 0b000000_11111_00000_00000_00000_001000 (.jr 31) = true ∧
    reads 0b000000_00001_00000_11111_00000_001001 (.jalr 31 1) = true := by decide

/-- Opcode 1: the sub-function stands in the rt field. -/
theorem test_decode_branch_family :
    reads 0b000001_00001_00000_1111111111111100 (.bltz 1 0xFFFC#16) = true ∧
    reads 0b000001_00001_00001_1111111111111100 (.bgez 1 0xFFFC#16) = true ∧
    reads 0b000001_00001_10000_1111111111111100 (.bltzal 1 0xFFFC#16) = true ∧
    reads 0b000001_00001_10001_1111111111111100 (.bgezal 1 0xFFFC#16) = true := by decide

/-- The rt field of BLEZ and BGTZ is zero. -/
theorem test_decode_branches_and_jumps :
    reads 0b000010_10000000000000000000000001 (.j 0x2000001#26) = true ∧
    reads 0b000011_00000000000000000000001000 (.jal 8#26) = true ∧
    reads 0b000100_00001_00010_0000000000000011 (.beq 1 2 3#16) = true ∧
    reads 0b000101_00001_00010_1000000000000000 (.bne 1 2 0x8000#16) = true ∧
    reads 0b000110_00001_00000_0000000000000011 (.blez 1 3#16) = true ∧
    reads 0b000111_00001_00000_0000000000000011 (.bgtz 1 3#16) = true := by decide

/-- rs 1, rt 2; LUI has no rs. -/
theorem test_decode_immediate_alu :
    reads 0b001000_00001_00010_1000000000000001 (.addi 2 1 0x8001#16) = true ∧
    reads 0b001001_00001_00010_1000000000000001 (.addiu 2 1 0x8001#16) = true ∧
    reads 0b001010_00001_00010_1000000000000001 (.slti 2 1 0x8001#16) = true ∧
    reads 0b001011_00001_00010_1000000000000001 (.sltiu 2 1 0x8001#16) = true ∧
    reads 0b001100_00001_00010_1000000000000001 (.andi 2 1 0x8001#16) = true ∧
    reads 0b001101_00001_00010_1000000000000001 (.ori 2 1 0x8001#16) = true ∧
    reads 0b001110_00001_00010_1000000000000001 (.xori 2 1 0x8001#16) = true ∧
    reads 0b001111_00000_00010_1000000000000001 (.lui 2 0x8001#16) = true := by decide

/-- Base 1, data register 2. -/
theorem test_decode_loads_and_stores :
    reads 0b100000_00001_00010_1111111111111111 (.lb 2 1 0xFFFF#16) = true ∧
    reads 0b100001_00001_00010_1111111111111111 (.lh 2 1 0xFFFF#16) = true ∧
    reads 0b100010_00001_00010_1111111111111111 (.lwl 2 1 0xFFFF#16) = true ∧
    reads 0b100011_00001_00010_1111111111111111 (.lw 2 1 0xFFFF#16) = true ∧
    reads 0b100100_00001_00010_1111111111111111 (.lbu 2 1 0xFFFF#16) = true ∧
    reads 0b100101_00001_00010_1111111111111111 (.lhu 2 1 0xFFFF#16) = true ∧
    reads 0b100110_00001_00010_1111111111111111 (.lwr 2 1 0xFFFF#16) = true ∧
    reads 0b101000_00001_00010_1111111111111111 (.sb 2 1 0xFFFF#16) = true ∧
    reads 0b101001_00001_00010_1111111111111111 (.sh 2 1 0xFFFF#16) = true ∧
    reads 0b101011_00001_00010_1111111111111111 (.sw 2 1 0xFFFF#16) = true := by decide

/-- Unused fields are ignored (E10 to E13). -/
theorem test_decode_ignores_unused_fields :
    decodeTableWord 32 0x00221960 = some (.add 3 1 2) ∧ decodeTableWord 32 0x00274808 = some (.jr 1) ∧
      decodeTableWord 32 0x00201810 = some (.mfhi 3) ∧ decodeTableWord 32 0x00221900 = some (.sll 3 2 4#5) := by decide

/-- Words that select nothing are refused by name (S7, V42-15, V42-16, E9). -/
theorem test_decode_refuses_by_name :
    decodeWord 0x00221827 = .error (.noFunction 0x27) ∧ decodeWord 0x0000000C = .error (.noFunction 0x0C) ∧
      decodeWord 0x04220000 = .error (.noBranch 0x02) ∧ decodeWord 0x04320003 = .error (.noBranch 0x12) ∧
      decodeWord 0x40000010 = .error (.noOpcode 0x10) ∧ decodeWord 0xB8220000 = .error (.noOpcode 0x2E) ∧
      decodeWord 0xFFFFFFFF = .error (.noOpcode 0x3F) := by decide

/-- Fewer than four bytes are no instruction; the bytes after an instruction are given back (30_encoding.md R90). -/
theorem test_decode_bytes :
    decodeBytes [0x00, 0x22, 0x18] = .error .truncated ∧ decodeBytes [] = .error .truncated ∧
      decodeBytes [0x00, 0x22, 0x18, 0x20, 0xAA] = .ok (.add 3 1 2, [0xAA]) := by decide

/-- No two of the table's 53 rows match one word: where both rows fix a bit they differ in one. -/
theorem test_opcode_rows_are_disjoint :
    opcodeRows.length = 53 ∧ opcodeRows.Pairwise (fun a b => (a.bits ^^^ b.bits) &&& (a.mask &&& b.mask) ≠ 0) := by
  decide

/-! ### Single steps against 95_test_vectors.md -/

/-- S1a, S1b, and rd = rs = rt. -/
theorem test_add :
    gives 0x00221820 [(1, 0x28), (2, 0x32)] 3 0x5A = true ∧
    gives 0x00221820 [(1, 0xFFFFFFD8), (2, 0xFFFFFFCE)] 3 0xFFFFFFA6 = true := by decide

/-- S2a. -/
theorem test_add_overflow :
    faults 0x00221820 [(1, 0x7FFFFFFF), (2, 0x7FFFFFFF)] .arithmeticOverflow = true := by decide

/-- S3a; S4a into register 0. -/
theorem test_addu :
    gives 0x00221821 [(1, 0x7FFFFFFF), (2, 0x7FFFFFFF)] 3 0xFFFFFFFE = true ∧
    gives 0x00220021 [(1, 5), (2, 6)] 0 0 = true := by decide

/-- 41_register_type.md R157. -/
theorem test_sub :
    gives 0x00221822 [(1, 5), (2, 7)] 3 0xFFFFFFFE = true := by decide

/-- 41_register_type.md R157: -2^31 - 1. -/
theorem test_sub_overflow :
    faults 0x00221822 [(1, 0x80000000), (2, 1)] .arithmeticOverflow = true := by decide

/-- 41_register_type.md R158: the same operands wrap. -/
theorem test_subu :
    gives 0x00221823 [(1, 0x80000000), (2, 1)] 3 0x7FFFFFFF = true := by decide

/-- 41_register_type.md R159. -/
theorem test_and :
    gives 0x00221824 [(1, 0xFF00FF00), (2, 0x0FF00FF0)] 3 0x0F000F00 = true := by decide

/-- 41_register_type.md R160. -/
theorem test_or :
    gives 0x00221825 [(1, 0xFF00FF00), (2, 0x0FF00FF0)] 3 0xFFF0FFF0 = true := by decide

/-- 41_register_type.md R161. -/
theorem test_xor :
    gives 0x00221826 [(1, 0xFF00FF00), (2, 0x0FF00FF0)] 3 0xF0F0F0F0 = true := by decide

/-- signed; V41-18. -/
theorem test_slt :
    gives 0x0022182A [(1, 0x80000000), (2, 0x7FFFFFFF)] 3 1 = true ∧
    gives 0x0021182A [(1, 5)] 3 0 = true := by decide

/-- V41-19, V41-20. -/
theorem test_sltu :
    gives 0x0022182B [(1, 0x80000000), (2, 0x7FFFFFFF)] 3 0 = true ∧
    gives 0x0001182B [(1, 1)] 3 1 = true := by decide

/-- V41-21, V41-22. -/
theorem test_sll :
    gives 0x00021800 [(2, 0x89ABCDEF)] 3 0x89ABCDEF = true ∧
    gives 0x00021FC0 [(2, 3)] 3 0x80000000 = true := by decide

/-- V41-23. -/
theorem test_srl :
    gives 0x00021FC2 [(2, 0x80000000)] 3 1 = true := by decide

/-- V41-25, V41-26. -/
theorem test_sra :
    gives 0x00021FC3 [(2, 0x80000000)] 3 0xFFFFFFFF = true ∧
    gives 0x00021FC3 [(2, 0x7FFFFFFF)] 3 0 = true := by decide

/-- V41-27, V41-28. -/
theorem test_sllv :
    gives 0x00221804 [(1, 0x20), (2, 1)] 3 1 = true ∧
    gives 0x00221804 [(1, 0xFFFFFFFF), (2, 1)] 3 0x80000000 = true := by decide

/-- V41-29. -/
theorem test_srlv :
    gives 0x00221806 [(1, 0xFFFFFFE4), (2, 0xF0000000)] 3 0x0F000000 = true := by decide

/-- V41-30, V41-31. -/
theorem test_srav :
    gives 0x00221807 [(1, 4), (2, 0xF0000000)] 3 0xFF000000 = true ∧
    gives 0x00421007 [(2, 0x80000004)] 2 0xF8000000 = true := by decide

/-- V41-33, V41-34. -/
theorem test_mult :
    givesHiLo 0x00220018 [(1, 0x7FFFFFFF), (2, 0x80000000)] 0xC0000000 0x80000000 = true ∧
    givesHiLo 0x00220018 [(1, 0xFFFFFFFF), (2, 0xFFFFFFFF)] 0 1 = true := by decide

/-- V41-35. -/
theorem test_multu :
    givesHiLo 0x00220019 [(1, 0xFFFFFFFF), (2, 0xFFFFFFFF)] 0xFFFFFFFE 1 = true := by decide

/-- V41-38, V41-39, V41-41. -/
theorem test_div :
    givesHiLo 0x0022001A [(1, 7), (2, 0xFFFFFFFE)] 1 0xFFFFFFFD = true ∧
    givesHiLo 0x0022001A [(1, 0xFFFFFFF9), (2, 0xFFFFFFFE)] 0xFFFFFFFF 3 = true ∧
    givesHiLo 0x0022001A [(1, 0x80000000), (2, 1)] 0 0x80000000 = true := by decide

/-- S6a. -/
theorem test_div_by_zero :
    faults 0x0022001A [(1, 7)] .invalidInstruction = true := by decide

/-- V41-44, V41-45. -/
theorem test_divu :
    givesHiLo 0x0022001B [(1, 0x80000000), (2, 0xFFFFFFFF)] 0x80000000 0 = true ∧
    givesHiLo 0x0022001B [(1, 5), (2, 7)] 5 0 = true := by decide

/-- S6b. -/
theorem test_divu_by_zero :
    faults 0x0022001B [(1, 7)] .invalidInstruction = true := by decide

/-- V41-46, V41-47. -/
theorem test_mfhi_mflo :
    nextIs (step { base 0x00001810 [] with hi := 0xFFFFFFFF }) (fun t => t.reg 3 == 0xFFFFFFFF) = true ∧
    nextIs (step { base 0x00001812 [] with lo := 5, hi := 9 }) (fun t => t.reg 3 == 5) = true ∧
    nextIs (step { base 0x00000012 [] with lo := 5 }) (fun t => t.reg 0 == 0) = true := by decide

/-- V41-48, V41-49; the other half is unchanged. -/
theorem test_mthi_mtlo :
    nextIs (step { base 0x00000011 [] with hi := 0x1234, lo := 7 }) (fun t => t.hi == 0 && t.lo == 7) = true ∧
    nextIs (step { base 0x03E00013 [(31, 0x8000)] with hi := 9 }) (fun t => t.lo == 0x8000 && t.hi == 9) = true := by
  decide

/-- V41-50, V41-53; a misaligned target is not checked here (D7). -/
theorem test_jr :
    goes 0x03E00008 [(31, 0x400)] 0x400 = true ∧
    goes 0x00000008 [] 0 = true ∧
    goes 0x00200008 [(1, 0x201)] 0x201 = true := by decide

/-- V41-51, V41-52, S4c. -/
theorem test_jalr :
    links 0x0020F809 [(1, 0x400)] 31 0x104 0x400 = true ∧
    links 0x00200809 [(1, 0x400)] 1 0x104 0x400 = true ∧
    links 0x00200009 [(1, 0x200)] 0 0 0x200 = true := by decide

/-- V42-01, V42-02. -/
theorem test_bltz :
    goes 0x04200003 [(1, 0x80000000)] 0x110 = true ∧
    goes 0x04200003 [(1, 0x7FFFFFFF)] 0x108 = true := by decide

/-- V42-04, V42-05, V42-07. -/
theorem test_bgez :
    goes 0x04210003 [] 0x110 = true ∧
    goes 0x04210003 [(1, 0xFFFFFFFF)] 0x108 = true ∧
    goes 0x04218000 [(1, 1)] 0xFFFE0104 = true := by decide

/-- V42-09, V42-10, V42-14. -/
theorem test_bltzal :
    links 0x04300003 [(1, 0xFFFFFFFF)] 31 0x104 0x110 = true ∧
    links 0x04300003 [] 31 0x104 0x108 = true ∧
    links 0x07F00003 [(31, 0x80000000)] 31 0x104 0x110 = true := by decide

/-- V42-11, V42-12, V42-13. -/
theorem test_bgezal :
    links 0x04310003 [(1, 0xFFFFFFFF)] 31 0x104 0x108 = true ∧
    links 0x04110003 [] 31 0x104 0x110 = true ∧
    links 0x07F10003 [(31, 0x80000000)] 31 0x104 0x108 = true := by decide

/-- S8a, S8b, S8c. -/
theorem test_beq :
    goes 0x10220003 [(1, 9), (2, 9)] 0x110 = true ∧
    goes 0x1022FFFC [(1, 9), (2, 9)] 0xF4 = true ∧
    goes 0x10220003 [(1, 9), (2, 8)] 0x108 = true := by decide

/-- V44-03, V44-04. -/
theorem test_bne :
    goes 0x14220003 [(1, 1), (2, 1)] 0x108 = true ∧
    goes 0x14228000 [(1, 1)] 0xFFFE0104 = true := by decide

/-- V44-05, V44-07. -/
theorem test_blez :
    goes 0x18200003 [] 0x110 = true ∧
    goes 0x18200003 [(1, 0x7FFFFFFF)] 0x108 = true := by decide

/-- V44-08, V44-09, V44-10. -/
theorem test_bgtz :
    goes 0x1C200003 [(1, 1)] 0x110 = true ∧
    goes 0x1C200003 [] 0x108 = true ∧
    goes 0x1C200003 [(1, 0xFFFFFFFF)] 0x108 = true := by decide

/-- V44-11. -/
theorem test_j :
    goes 0x0BFFFFFF [] 0x0FFFFFFC = true := by decide

/-- V44-13. -/
theorem test_jal :
    links 0x0C000080 [(31, 0x77)] 31 0x104 0x200 = true := by decide

/-- V44-14 to V44-16: targets at the edge of a region and of the address space. -/
theorem test_targets_at_boundaries :
    jumpTarget { State.reset with pc := 0x1FFFFFFC, npc := 0x20000000 } 0 = 0x10000000 ∧
    jumpTarget { State.reset with pc := 0xF0000000, npc := 0xF0000004 } 0x3FFFFFF = 0xFFFFFFFC ∧
    branchTarget { State.reset with pc := 0xFFFFFFF8, npc := 0xFFFFFFFC } 1 = 0 := by decide

/-- V43-03, V43-04. -/
theorem test_addi :
    gives 0x2022FFFF [(1, 0x7FFFFFFF)] 2 0x7FFFFFFE = true ∧
    gives 0x20228000 [] 2 0xFFFF8000 = true := by decide

/-- V43-01, V43-02, V43-06. -/
theorem test_addi_overflow :
    faults 0x2022FFFF [(1, 0x80000000)] .arithmeticOverflow = true ∧
    faults 0x20220001 [(1, 0x7FFFFFFF)] .arithmeticOverflow = true ∧
    faults 0x20200001 [(1, 0x7FFFFFFF)] .arithmeticOverflow = true := by decide

/-- V43-07, V43-08. -/
theorem test_addiu :
    gives 0x24220001 [(1, 0x7FFFFFFF)] 2 0x80000000 = true ∧
    gives 0x2422FFFF [] 2 0xFFFFFFFF = true := by decide

/-- V43-09, V43-10. -/
theorem test_slti :
    gives 0x2822FFFF [(1, 0x7FFFFFFF)] 2 0 = true ∧
    gives 0x28220000 [(1, 0x80000000)] 2 1 = true := by decide

/-- V43-12, V43-13. -/
theorem test_sltiu :
    gives 0x2C228000 [] 2 1 = true ∧
    gives 0x2C228000 [(1, 0xFFFF8000)] 2 0 = true := by decide

/-- V43-15. -/
theorem test_andi :
    gives 0x30228000 [(1, 0xFFFFFFFF)] 2 0x8000 = true := by decide

/-- V43-16. -/
theorem test_ori :
    gives 0x3402FFFF [] 2 0xFFFF = true := by decide

/-- V43-18. -/
theorem test_xori :
    gives 0x38228000 [(1, 0xFFFFFFFF)] 2 0xFFFF7FFF = true := by decide

/-- V43-19, S4b. -/
theorem test_lui :
    gives 0x3C028000 [(2, 0xFFFF)] 2 0x80000000 = true ∧
    gives 0x3C00FFFF [] 0 0 = true := by decide

/-- V45-01, V45-04, V45-07. -/
theorem test_lb :
    gives 0x80220000 [(1, 0x200)] 2 0xFFFFFF80 = true ∧
    gives 0x80220003 [(1, 0x200)] 2 0x7F = true ∧
    gives 0x8022FFFF [(1, 0x204)] 2 0x7F = true := by decide

/-- V45-05, V45-06. -/
theorem test_lbu :
    gives 0x90220000 [(1, 0x200)] 2 0x80 = true ∧
    gives 0x90220003 [(1, 0x200)] 2 0x7F = true := by decide

/-- V45-08. -/
theorem test_lh :
    gives 0x84220002 [(1, 0x200)] 2 0xFFFFFE7F = true := by decide

/-- S5g. -/
theorem test_lh_odd :
    faults 0x84230001 [(1, 0x200)] .invalidAddress = true := by decide

/-- V45-09. -/
theorem test_lhu :
    gives 0x94220002 [(1, 0x200)] 2 0xFE7F = true := by decide

/-- V45-10. -/
theorem test_lhu_odd :
    faults 0x94220003 [(1, 0x200)] .invalidAddress = true := by decide

/-- V45-12, V45-13, V45-17. -/
theorem test_lw :
    gives 0x8C22FFFC [(1, 0x204)] 2 0x8001FE7F = true ∧
    gives 0x8C210000 [(1, 0x200)] 1 0x8001FE7F = true ∧
    gives 0x8C220008 [(1, 0xFFFFFFF8)] 2 0 = true := by decide

/-- S5c, S5e, V45-15, V45-16. -/
theorem test_lw_faults :
    faults 0x8C230001 [(1, 0x200)] .invalidAddress = true ∧
    faults 0x8C230003 [(1, 0x200)] .invalidAddress = true ∧
    faults 0x8C220000 [(1, 0x10000)] (.memRead .invalidAddress) = true ∧
    faults 0x8C220000 [(1, 0xFFFFFFFC)] (.memRead .invalidAddress) = true := by decide

/-- V45-18. -/
theorem test_lwl :
    gives 0x88220004 [(1, 0x200), (2, 0xAAAAAAAA)] 2 0x11223344 = true := by decide

/-- 45_load_store.md R268. -/
theorem test_lwl_misaligned :
    faults 0x88220001 [(1, 0x200)] .invalidAddress = true := by decide

/-- V45-20. -/
theorem test_lwr_misaligned :
    faults 0x98220002 [(1, 0x200)] .invalidAddress = true := by decide

/-- V45-19 and V45-31: the two readings of LWR, and the step completes under either. -/
theorem test_lwr :
    lwrResult .mergeLowByte 0xAAAAAAAA 0x11223344 = 0xAAAAAA11 ∧ lwrResult .fullWord 0xAAAAAAAA 0x11223344 = 0x11223344 ∧
      goes 0x98220004 [(1, 0x200), (2, 0xAAAAAAAA)] 0x108 = true := by decide

/-- V45-21, V45-22. -/
theorem test_sb :
    stores 0xA0220000 [(1, 0x200), (2, 0x12345678)] 0x200 0x7801FE7F = true ∧
    stores 0xA0220003 [(1, 0x200), (2, 0x12345678)] 0x200 0x8001FE78 = true := by decide

/-- V45-30: the read fails first. -/
theorem test_sb_outside :
    faults 0xA0220000 [(1, 0x10002), (2, 1)] (.memRead .invalidAddress) = true := by decide

/-- V45-23, V45-24. -/
theorem test_sh :
    stores 0xA4220000 [(1, 0x200), (2, 0x12345678)] 0x200 0x5678FE7F = true ∧
    stores 0xA4220006 [(1, 0x200), (2, 0x12345678)] 0x204 0x11225678 = true := by decide

/-- V45-25. -/
theorem test_sh_odd :
    faults 0xA4220003 [(1, 0x200), (2, 0x12345678)] .invalidAddress = true := by decide

/-- S5a, V45-28. -/
theorem test_sw :
    stores 0xAC220000 [(1, 0x200), (2, 0xDEADBEEF)] 0x200 0xDEADBEEF = true ∧
    stores 0xAC200000 [(1, 0x200)] 0x200 0 = true := by decide

/-- V45-27, V45-29. -/
theorem test_sw_faults :
    faults 0xAC220001 [(1, 0x200), (2, 1)] .invalidAddress = true ∧
    faults 0xAC220000 [(1, 0x20000), (2, 1)] (.memWrite 0x20000 .invalidAddress) = true := by decide

/-! ### Fetch, reset and the host's view -/

/-- Q1, Q2, S7a: the fetch's three faults. -/
theorem test_fetch_faults :
    faultIs (step { base 0 [] with pc := 0x102, npc := 0x106 }) .invalidAddress = true ∧
    faultIs (step { base 0 [] with pc := 0x10000, npc := 0x10004 }) (.memRead .invalidAddress) = true ∧
    faults 0x00221827 [(1, 5), (2, 6)] .invalidInstruction = true := by decide

/-- S9a, S9b: reset, then the first step at address 0. -/
theorem test_reset :
    State.reset.npc = 4 ∧ (State.resetCommand { base 0 [(5, 0x12345678)] with hi := 1, lo := 2 }).reg 5 = 0 ∧
    nextIs (step (State.reset.withFetchWord 32 0x24010005)) (fun t => t.reg 1 == 5 && t.pc == 4 && t.npc == 8) = true := by
  decide

/-- With nothing placed memory reads zero, whose words are the no-op (30_encoding.md R106), assumption 14. -/
theorem test_empty_memory_is_noop : nextIs (step State.reset) (fun t => t.pc == 4 && t.npc == 8) = true := by decide

/-- A word placed with fewer bits than 32 has its upper bits zero. -/
theorem test_with_fetch_word_masks :
    (State.reset.withFetchWord 16 0xFFFF1820).mem.word 0 = 0x00001820 := by decide

/-- Memory stays canonical: writing what an unlisted byte reads as removes the entry. -/
theorem test_memory_is_canonical :
    (((memWith []).set 8 1).set 4 2).cells = [(4, 2), (8, 1)] ∧ (((memWith []).set 8 1).set 8 0).cells = [] ∧
      (base 0x00221820 []).mem.wf = true ∧
      Memory.wf { Memory.atReset with cells := [(4, 0)] } = false ∧
      Memory.wf { Memory.atReset with cells := [(8, 1), (4, 2)] } = false := by decide

/-- The status of a store's write can depend on the word written (20_memory.md R60): with one value listed, SW of it
fails and SW of another completes. -/
theorem test_write_status_depends_on_the_word :
    faultIs (step (withErrors 0xAC220000 [(1, 0x200), (2, 5)] [⟨.write 0x200 (some 5), .other 1⟩]))
      (.memWrite 0x200 (.other 1)) = true ∧
    nextIs (step (withErrors 0xAC220000 [(1, 0x200), (2, 6)] [⟨.write 0x200 (some 5), .other 1⟩]))
      (fun t => t.mem.word 0x200 == 6) = true := by decide

/-- A core created over a memory that a failed write has spoiled goes on from that memory's counter, assumption 5. -/
theorem test_create_keeps_the_counter :
    let m := (State.afterFault (base 0 []) (.memWrite 0x200 (.other 1))).mem
    m.freeIndex = 4 ∧ ((State.create m).afterFault (.memWrite 0x204 (.other 1))).mem.freeIndex = 8 := by decide

/-- What a run leaves is this. -/
def runIs (o : Except Refusal RunResult) (ended : Bool) (last : Option Status) (p : State → Bool) : Bool :=
  match o with
  | .ok r => r.ended == ended && r.last == last && p r.state
  | .error _ => false

/-- A run ends when the host says so: at once, without a step; after three no-ops; with a fault's status; and cut off
by its bound, with the status of its last step and not ended. -/
theorem test_run_until :
    runIs (runUntil (fun t _ => t.pc == 0) 9 none State.reset) true none (fun t => t == State.reset) = true ∧
    runIs (runUntil (fun t _ => t.pc == 12) 9 none State.reset) true (some .success) (fun t => t.pc == 12) = true ∧
    runIs (runUntil (fun _ st => st == some .invalidInstruction) 9 none (base 0x0000000D [])) true
      (some .invalidInstruction) (fun t => t == base 0x0000000D []) = true ∧
    runIs (runUntil (fun _ _ => false) 2 none (base 0x0000000D [])) false (some .invalidInstruction)
      (fun t => t == base 0x0000000D []) = true := by decide

/-! ### Witnesses: for each statement with hypotheses, a state and operands that meet them

A statement that is an equation or an equivalence for every input needs none. The clauses of a statement are met one by
one, at the values where they change. -/

/-- FieldValueRoundTrip: the largest value of each width. -/
theorem witness_field_value_round_trip :
    Field.fits .op 63 = true ∧ Field.fits .rs 31 = true ∧ Field.fits .rt 31 = true ∧ Field.fits .rd 31 = true ∧
      Field.fits .sa 31 = true ∧ Field.fits .funct 63 = true ∧ Field.fits .imm 65535 = true ∧
      Field.fits .index 67108863 = true := by decide

/-- UnmappedWordsAreInvalid: NOR's word. -/
theorem witness_unmapped_words :
    let s := base 0x00221827 []
    s.pc.toNat % 4 = 0 ∧ Answers s (.read s.pc) ∧ ∀ r ∈ opcodeRows, r.matchesWord (s.mem.word s.pc) = false := by decide

/-- StepRunsDecodedInstruction. -/
theorem witness_step_runs :
    let s := base 0x00221820 [(1, 1), (2, 2)]
    s.pc.toNat % 4 = 0 ∧ Answers s (.read s.pc) ∧ decodeBytes (bytesAt s s.pc) = .ok (.add 3 1 2, []) := by decide

/-- WordRequestsAreBigEndian: the last word of the store is answered, the next is not; a listed write fails. -/
theorem witness_word_requests :
    let s := withErrors 0 [] [⟨.write 0x200 none, .other 3⟩]
    (0xFFFC : Word).toNat % 4 = 0 ∧ Answers s (.read 0xFFFC) ∧ Answers s (.write 0xFFFC 7) ∧
      s.mem.answer (.read 0x10000) = some .invalidAddress ∧ s.mem.answer (.write 0x10000 7) = some .invalidAddress ∧
      s.mem.answer (.write 0x200 7) = some (.other 3) ∧ Answers s (.read 0x200) := by decide

theorem inv_of_checks {s : State} (h : s.gpr[0] = 0#32 ∧ s.mem.wf = true) : s.Inv := ⟨h.1, h.2⟩

/-- EveryStepKeepsInvariant: a register write, and a store. -/
theorem witness_every_step :
    ((base 0x00221820 [(1, 1)]).Inv ∧ ∃ t, step (base 0x00221820 [(1, 1)]) = .next t) ∧
      ((base 0xAC220000 [(1, 0x200)]).Inv ∧ ∃ t, step (base 0xAC220000 [(1, 0x200)]) = .next t) :=
  ⟨⟨inv_of_checks (by decide), (next_of_nextIs (p := fun _ => true) (by decide)).imp fun _ h => h.1⟩,
    inv_of_checks (by decide), (next_of_nextIs (p := fun _ => true) (by decide)).imp fun _ h => h.1⟩

/-- EveryCommandKeepsInvariant: a write of register 5, reset, and construction over a canonical memory. -/
theorem witness_every_command :
    (base 0 []).Inv ∧
      (∃ r t, command (.setRegister 5 1) (some (base 0 [])) = .ok r ∧ r.core = some t) ∧
      (∃ r t, command .reset (some (base 0 [])) = .ok r ∧ r.core = some t) ∧
      (∃ r t, command (.create Memory.atReset) (some (base 0 [])) = .ok r ∧ r.core = some t) ∧
      Memory.atReset.wf = true :=
  ⟨inv_of_checks (by decide), ⟨_, _, rfl, rfl⟩, ⟨_, _, rfl, rfl⟩, ⟨_, _, rfl, rfl⟩, by decide⟩

/-- ProgramCounterPairSequencing, RegisterZeroIsHardwired, DelaySlotAlwaysExecutes: a taken branch from a register file
whose register 0 holds 5, and the step after it. -/
theorem witness_two_steps :
    let s := { base 0x1000003F [] with gpr := State.reset.gpr.set 0 5 }
    ∃ u v, fetch s = .ok (.beq 0 0 63) ∧ step s = .next u ∧ step u = .next v ∧ v.pc = 0x200 ∧ s.gpr[0] = 5 := by
  intro s
  obtain ⟨u, hu, h⟩ := next_of_nextIs (o := step s)
    (p := fun u => nextIs (step u) (fun v => v.pc == 0x200)) (by decide)
  obtain ⟨v, hv, h⟩ := next_of_nextIs h
  exact ⟨u, v, by decide, hu, hv, by simpa using h, by decide⟩

/-- StepWritesOneRegisterAtMost: one instruction of each kind its clauses tell apart. -/
theorem witness_one_register :
    (fetch (base 0x00221820 []) = .ok (.add 3 1 2) ∧ ∃ t, step (base 0x00221820 []) = .next t) ∧
      (writesHiLo (.mult 1 2) = true ∧ fetch (base 0x00220018 []) = .ok (.mult 1 2) ∧
        ∃ t, step (base 0x00220018 []) = .next t) ∧
      (writesMemory (.sw 2 1 0) = true ∧ fetch (base 0xAC220000 [(1, 0x200)]) = .ok (.sw 2 1 0) ∧
        ∃ t, step (base 0xAC220000 [(1, 0x200)]) = .next t) :=
  ⟨⟨by decide, (next_of_nextIs (p := fun _ => true) (by decide)).imp fun _ h => h.1⟩,
    ⟨by decide, by decide, (next_of_nextIs (p := fun _ => true) (by decide)).imp fun _ h => h.1⟩,
    by decide, by decide, (next_of_nextIs (p := fun _ => true) (by decide)).imp fun _ h => h.1⟩

/-- The outcome of a step command, when it is this status. -/
def statusIs (o : Except Refusal (Status × State)) (st : Status) (p : State → Bool) : Bool :=
  match o with
  | .ok (a, t) => a == st && p t
  | .error _ => false

theorem ok_of_statusIs {o : Except Refusal (Status × State)} {st : Status} {p : State → Bool}
    (h : statusIs o st p = true) : ∃ t, o = .ok (st, t) ∧ p t = true := by
  cases o with
  | error r => cases h
  | ok x =>
    obtain ⟨a, t⟩ := x
    simp only [statusIs, Bool.and_eq_true, beq_iff_eq] at h
    exact ⟨t, by rw [h.1], h.2⟩

theorem sameMemory_of_beq {s t : State} {n : Nat} (h : (t.mem == { s.mem with freeIndex := n }) = true) :
    SameMemory s t := by
  rw [SameMemory, eq_of_beq h]
  exact ⟨fun _ => rfl, rfl, rfl⟩

/-- FaultsCommitNothing, FaultsRepeat: an overflow, and a store whose write fails outside the store, where no byte can
change and only the model's counter moves. -/
theorem witness_faults :
    (∃ t, stepCommand (base 0x00221820 [(1, 0x7FFFFFFF), (2, 2)]) = .ok (.arithmeticOverflow, t) ∧
        SameMemory (base 0x00221820 [(1, 0x7FFFFFFF), (2, 2)]) t) ∧
      (∃ t, stepCommand (base 0xAC220000 [(1, 0x20000)]) = .ok (.mem .invalidAddress, t) ∧
        SameMemory (base 0xAC220000 [(1, 0x20000)]) t) ∧
      Status.arithmeticOverflow ≠ .success ∧ Status.mem .invalidAddress ≠ .success :=
  ⟨(ok_of_statusIs (p := fun t => t.mem == { (base 0x00221820 [(1, 0x7FFFFFFF), (2, 2)]).mem with freeIndex := 0 })
      (by decide)).imp fun _ h => ⟨h.1, sameMemory_of_beq h.2⟩,
    (ok_of_statusIs (p := fun t => t.mem == { (base 0xAC220000 [(1, 0x20000)]).mem with freeIndex := 4 })
      (by decide)).imp fun _ h => ⟨h.1, sameMemory_of_beq h.2⟩,
    by decide, by decide⟩

/-- FaultsCommitNothing: a store whose write request fails inside the store. -/
theorem witness_failed_write :
    let s := withErrors 0xAC220000 [(1, 0x200)] [⟨.write 0x200 none, .other 3⟩]
    (∃ t, stepCommand s = .ok (.mem (.other 3), t) ∧ (t.mem.freeIndex == 4) = true) ∧
      memoryAccess (.sw 2 1 0) s = some (0x200, 4) ∧ writtenWord (.sw 2 1 0) s = some 0 :=
  ⟨ok_of_statusIs (by decide), by decide, by decide⟩

/-- FailedWriteBytesAreFree: a store whose last byte lies in the middle of the word, so that both clauses hold. -/
theorem witness_failed_write_bytes :
    let s := { base 0 [] with mem := { (base 0 []).mem with size := 0xFFFE } }
    (0xFFFC : Word).toNat % 4 = 0 ∧ (0xFFFC + BitVec.ofNat 32 1 : Word).toNat < s.mem.size ∧
      ¬(0xFFFC + BitVec.ofNat 32 2 : Word).toNat < s.mem.size := by decide

/-- OverflowFaultsExactlyFromSignedAddSub, AddResultOrOverflow, SubResultOrOverflow, AddiResultOrOverflow: both clauses
at both ends of the range. -/
theorem witness_signed_range :
    let s := base 0 [(1, 0x7FFFFFFF), (2, 0x80000000), (3, 1), (4, 0xFFFFFFFF)]
    FitsSigned ((s.reg 1).toInt + (s.reg 0).toInt) ∧ ¬FitsSigned ((s.reg 1).toInt + (s.reg 3).toInt) ∧
      FitsSigned ((s.reg 2).toInt + (s.reg 0).toInt) ∧ ¬FitsSigned ((s.reg 2).toInt + (s.reg 4).toInt) ∧
      FitsSigned ((s.reg 1).toInt - (s.reg 0).toInt) ∧ ¬FitsSigned ((s.reg 1).toInt - (s.reg 4).toInt) ∧
      FitsSigned ((s.reg 2).toInt - (s.reg 0).toInt) ∧ ¬FitsSigned ((s.reg 2).toInt - (s.reg 3).toInt) ∧
      FitsSigned ((s.reg 1).toInt + (0#16).toInt) ∧ ¬FitsSigned ((s.reg 1).toInt + (1#16).toInt) ∧
      FitsSigned ((s.reg 2).toInt + (0#16).toInt) ∧ ¬FitsSigned ((s.reg 2).toInt + (0xFFFF#16).toInt) := by decide

/-- InvalidInstructionCauses: each of its three causes. -/
theorem witness_invalid_instruction :
    (let s := base 0xFFFFFFFF []
     s.pc.toNat % 4 = 0 ∧ Answers s (.read s.pc) ∧ decodeWord (s.mem.word s.pc) = .error (.noOpcode 0x3F)) ∧
      (fetch (base 0x0020001A [(1, 7)]) = .ok (.div 1 0) ∧ (base 0x0020001A [(1, 7)]).reg 0 = 0) ∧
      (fetch (base 0x0022001B [(1, 7)]) = .ok (.divu 1 2) ∧ (base 0x0022001B [(1, 7)]).reg 2 = 0) := by decide

/-- InvalidAddressCauses: a misaligned fetch, an odd halfword, and a word at each misaligned lane. -/
theorem witness_invalid_address :
    faultIs (step { base 0 [] with pc := 0x101 }) .invalidAddress = true ∧
      faultIs (step { base 0 [] with pc := 0x103 }) .invalidAddress = true ∧
      faults 0xA4220001 [(1, 0x200)] .invalidAddress = true ∧ faults 0x8C230001 [(1, 0x200)] .invalidAddress = true ∧
      faults 0xAC220002 [(1, 0x200)] .invalidAddress = true ∧ faults 0x98220003 [(1, 0x200)] .invalidAddress = true ∧
      memoryAccess (.sh 2 1 1) (base 0xA4220001 [(1, 0x200)]) = some (0x201, 2) := by decide

/-- MemoryStatusCauses: a fetch, a load, the read of SB, the write of SB after its read, and the write of SW. -/
theorem witness_memory_status :
    faultIs (step (withErrors 0 [] [⟨.read 0x100, .other 1⟩])) (.memRead (.other 1)) = true ∧
      faultIs (step (withErrors 0x8C230000 [(1, 0x200)] [⟨.read 0x200, .other 2⟩])) (.memRead (.other 2)) = true ∧
      faultIs (step (withErrors 0xA0220003 [(1, 0x200)] [⟨.read 0x200, .other 3⟩])) (.memRead (.other 3)) = true ∧
      faultIs (step (withErrors 0xA0220003 [(1, 0x200)] [⟨.write 0x200 none, .other 4⟩])) (.memWrite 0x200 (.other 4)) =
        true ∧
      faultIs (step (withErrors 0xAC220000 [(1, 0x200)] [⟨.read 0x200, .other 5⟩, ⟨.write 0x200 none, .other 6⟩]))
        (.memWrite 0x200 (.other 6)) = true := by decide

/-- AddressesStayAlignedUnlessRegisterJump: a taken branch and a jump. -/
theorem witness_aligned :
    (fetch (base 0x1000FFFF []) = .ok (.beq 0 0 0xFFFF) ∧ jumpsToRegister (.beq 0 0 0xFFFF) = false ∧
        (base 0x1000FFFF []).npc.toNat % 4 = 0 ∧ ∃ t, step (base 0x1000FFFF []) = .next t) ∧
      (fetch (base 0x0BFFFFFF []) = .ok (.j 0x3FFFFFF) ∧ jumpsToRegister (.j 0x3FFFFFF) = false ∧
        ∃ t, step (base 0x0BFFFFFF []) = .next t) :=
  ⟨⟨by decide, by decide, by decide, (next_of_nextIs (p := fun _ => true) (by decide)).imp fun _ h => h.1⟩,
    by decide, by decide, (next_of_nextIs (p := fun _ => true) (by decide)).imp fun _ h => h.1⟩

/-- StoredInstructionIsFetched: SW of ADD's word to the next instruction's address. -/
theorem witness_stored_instruction :
    let s := base 0xAC220000 [(1, 0x104), (2, 0x00221820)]
    s.npc.toNat % 4 = 0 ∧ effectiveAddress s 1 0 = s.npc ∧ Answers s (.write s.npc (s.reg 2)) ∧ Answers s (.read s.npc) ∧
      decodeWord (s.reg 2) = .ok (.add 3 1 2) := by decide

/-- StoreThenLoadWord, LoadWordResults, LoadWordRightResult, StoreWordResult: the last word of the store is answered,
the word above it and a listed one are not, and the lanes 1 to 3 are misaligned. -/
theorem witness_word_access :
    let s := withErrors 0 [(1, 0xFFFC), (2, 0x10000), (3, 0x204)] [⟨.read 0x204, .other 1⟩, ⟨.write 0x204 none, .other 2⟩]
    ((effectiveAddress s 1 0).toNat % 4 = 0 ∧ Answers s (.read (effectiveAddress s 1 0)) ∧
        Answers s (.write (effectiveAddress s 1 0) (s.reg 2))) ∧
      ((effectiveAddress s 2 0).toNat % 4 = 0 ∧ s.mem.answer (.read (effectiveAddress s 2 0)) = some .invalidAddress ∧
        s.mem.answer (.write (effectiveAddress s 2 0) (s.reg 2)) = some .invalidAddress) ∧
      (s.mem.answer (.read (effectiveAddress s 3 0)) = some (.other 1) ∧
        s.mem.answer (.write (effectiveAddress s 3 0) (s.reg 2)) = some (.other 2)) ∧
      (effectiveAddress s 1 1).toNat % 4 ≠ 0 ∧ (effectiveAddress s 1 2).toNat % 4 ≠ 0 ∧
      (effectiveAddress s 1 3).toNat % 4 ≠ 0 := by decide

/-- LanesAreBigEndian: each of the four lanes of a word, and the two even ones. -/
theorem witness_lanes :
    let s := base 0 [(1, 0x200), (2, 0x11223344)]
    (∀ k < 4, effectiveAddress s 1 (BitVec.ofNat 16 k) = effectiveAddress s 1 0 + BitVec.ofNat 32 k) ∧
      (effectiveAddress s 1 0).toNat % 4 = 0 ∧ Answers s (.write (effectiveAddress s 1 0) (s.reg 2)) ∧
      Answers s (.read (effectiveAddress s 1 0)) ∧ (effectiveAddress s 1 2).toNat % 2 = 0 := by decide

/-- SignedDivision: its three clauses, the last at the values next to the corner. -/
theorem witness_signed_division :
    let s := base 0 [(1, 0x80000000), (2, 0xFFFFFFFF), (3, 1), (4, 0x80000001)]
    s.reg 0 = 0#32 ∧ (s.reg 1 = 0x80000000#32 ∧ s.reg 2 = 0xFFFFFFFF#32) ∧
      (s.reg 3 ≠ 0#32 ∧ ¬(s.reg 1 = 0x80000000#32 ∧ s.reg 3 = 0xFFFFFFFF#32)) ∧
      (s.reg 2 ≠ 0#32 ∧ ¬(s.reg 4 = 0x80000000#32 ∧ s.reg 2 = 0xFFFFFFFF#32)) := by decide

/-- The corner of DIV completes, with a pair that nothing constrains (V41-42 states it under the recommended value). -/
theorem witness_signed_division_corner : goes 0x0022001A [(1, 0x80000000), (2, 0xFFFFFFFF)] 0x108 = true := by decide

/-- UnsignedDivision: the smallest divisor that is not zero, and the largest. -/
theorem witness_unsigned_division :
    let s := base 0 [(1, 1), (2, 0xFFFFFFFF)]
    s.reg 0 = 0#32 ∧ s.reg 1 ≠ 0#32 ∧ s.reg 2 ≠ 0#32 := by decide

/-- SignBranches, LinkingSignBranches, ZeroBranches, EqualityBranches: each test holds somewhere and fails somewhere, at
-1, 0 and 1. -/
theorem witness_branch_tests :
    let s := base 0 [(1, 0xFFFFFFFF), (2, 1)]
    (s.reg 1).toInt < 0 ∧ ¬(s.reg 0).toInt < 0 ∧ 0 ≤ (s.reg 0).toInt ∧ ¬0 ≤ (s.reg 1).toInt ∧ (s.reg 0).toInt ≤ 0 ∧
      ¬(s.reg 2).toInt ≤ 0 ∧ 0 < (s.reg 2).toInt ∧ ¬0 < (s.reg 0).toInt ∧ s.reg 0 = s.reg 3 ∧ s.reg 1 ≠ s.reg 2 := by
  decide

/-- LoadByteResults, StoreByteResult: the store's last byte, and requests that fail; the word is the one that the
statement describes. -/
theorem witness_byte_access :
    let s := withErrors 0 [(1, 0xFFFF), (2, 0x10000), (3, 0x203)] [⟨.write 0x200 none, .other 2⟩]
    (Answers s (.read (wordAddress (effectiveAddress s 1 0))) ∧
        Answers s (.write (wordAddress (effectiveAddress s 1 0)) 0) ∧ (s.reg 0).extractLsb' 0 8 = 0 ∧
        s.mem.word (wordAddress (effectiveAddress s 1 0)) = 0) ∧
      s.mem.answer (.read (wordAddress (effectiveAddress s 2 0))) = some .invalidAddress ∧
      (Answers s (.read (wordAddress (effectiveAddress s 3 0))) ∧
        s.mem.answer (.write (wordAddress (effectiveAddress s 3 0)) 0x8001FE00) = some (.other 2) ∧
        writtenWord (.sb 0 3 0) s = some 0x8001FE00) := by decide

/-- LoadHalfResults, StoreHalfResult: the store's last halfword, an odd address, and requests that fail. -/
theorem witness_half_access :
    let s := withErrors 0 [(1, 0xFFFE), (2, 0x10000), (3, 0x202)] [⟨.write 0x200 none, .other 2⟩]
    ((effectiveAddress s 1 0).toNat % 2 = 0 ∧ Answers s (.read (wordAddress (effectiveAddress s 1 0))) ∧
        Answers s (.write (wordAddress (effectiveAddress s 1 0)) 0x00000202) ∧
        writtenWord (.sh 3 1 0) s = some 0x00000202) ∧
      (effectiveAddress s 1 0xFFFF).toNat % 2 ≠ 0 ∧
      ((effectiveAddress s 2 0).toNat % 2 = 0 ∧
        s.mem.answer (.read (wordAddress (effectiveAddress s 2 0))) = some .invalidAddress) ∧
      ((effectiveAddress s 3 0).toNat % 2 = 0 ∧ Answers s (.read (wordAddress (effectiveAddress s 3 0))) ∧
        s.mem.answer (.write (wordAddress (effectiveAddress s 3 0)) 0x80010202) = some (.other 2) ∧
        writtenWord (.sh 3 3 0) s = some 0x80010202) := by decide

/-- ConstructionStartsAtZero: a memory with an instruction at address 0. -/
theorem witness_construction :
    let m := memWith [(0, 0x24010005)]
    Answers (State.create m) (.read 0#32) ∧ decodeWord (m.word 0#32) = .ok (.addiu 1 0 5) ∧
      nextIs (step (State.create m)) (fun u => u.pc == 4) = true := by decide

/-- AccessorsTouchOnlyTheirItem: the first index that is refused, and the last that is not. -/
theorem witness_accessors :
    (match command (.getRegister 32) (some State.reset) with
      | .error r => r == .registerIndex 32
      | .ok _ => false) = true ∧
      (match command (.getRegister 31) (some State.reset) with
        | .error _ => false
        | .ok r => r.value == some 0) = true := by decide

/-- MissingCoreReturnsInvalidHandle: a command that is not create. -/
theorem witness_missing_core : ∀ m, Command.step ≠ .create m := by
  intro m h
  cases h

end Sys2Proof.Tests
end

/-! ### Field access: bits, ranges and the settled statements on fields (30_encoding.md R91, R108) -/

namespace Sys2Proof

/-- Every field lies inside the word. -/
theorem Field.lo_add_width_le (f : Field) : f.lo + f.width ≤ 32 := by
  cases f <;> decide

theorem Field.fits_iff (f : Field) (v : Nat) : f.fits v = true ↔ v < 2 ^ f.width := by
  simp [Field.fits]

/-- A field's mask has exactly the bits of the field's range. -/
theorem Field.getLsbD_mask (f : Field) (i : Nat) :
    f.mask.getLsbD i = (decide (f.lo ≤ i) && decide (i < f.lo + f.width)) := by
  have hle := f.lo_add_width_le
  rw [Bool.eq_iff_iff]
  simp only [Field.mask, BitVec.getLsbD_shiftLeft, BitVec.getLsbD_ofNat, Nat.testBit_two_pow_sub_one,
    Bool.and_eq_true, Bool.not_eq_true', decide_eq_true_eq, decide_eq_false_iff_not]
  omega

/-- Masking and shifting is extracting the field's bit range, the form in which the decoder's fields are written. -/
theorem Field.get_eq_extractLsb' (f : Field) (w : Word) : f.get w = (w.extractLsb' f.lo f.width).toNat := by
  refine Nat.eq_of_testBit_eq fun i => ?_
  simp only [Field.get, BitVec.testBit_toNat, BitVec.getLsbD_ushiftRight, BitVec.getLsbD_and, Field.getLsbD_mask,
    BitVec.getLsbD_extractLsb']
  simp [Bool.and_comm]

theorem Field.get_eq_div_mod (f : Field) (w : Word) : f.get w = w.toNat / 2 ^ f.lo % 2 ^ f.width := by
  rw [f.get_eq_extractLsb', BitVec.extractLsb'_toNat, Nat.shiftRight_eq_div_pow]

/-- Inside the field's range a set word has the bits of the value, outside it the bits it had. -/
theorem Field.getLsbD_set (f : Field) (v : Nat) (w : Word) (i : Nat) :
    (f.set v w).getLsbD i = if f.lo ≤ i ∧ i < f.lo + f.width then v.testBit (i - f.lo) else w.getLsbD i := by
  have hle := f.lo_add_width_le
  simp only [Field.set, BitVec.getLsbD_or, BitVec.getLsbD_and, BitVec.getLsbD_not, BitVec.getLsbD_shiftLeft,
    BitVec.getLsbD_ofNat, Field.getLsbD_mask]
  split
  case isTrue hin =>
    have hi : i < 32 := by omega
    have hv : i - f.lo < 32 := by omega
    simp [hin, hi, hv]
  case isFalse hout =>
    have hmask : (decide (f.lo ≤ i) && decide (i < f.lo + f.width)) = false := by simpa using hout
    rw [hmask]
    by_cases hi : i < 32
    · simp [hi]
    · simp [hi, BitVec.getLsbD_of_ge w i (by omega)]

/-- Reading a field back gives the written value cut to the field's width. -/
theorem Field.get_set (f : Field) (v : Nat) (w : Word) : f.get (f.set v w) = v % 2 ^ f.width := by
  refine Nat.eq_of_testBit_eq fun i => ?_
  rw [f.get_eq_extractLsb', BitVec.testBit_toNat, BitVec.getLsbD_extractLsb', f.getLsbD_set, Nat.testBit_mod_two_pow]
  by_cases hi : i < f.width <;> simp [hi]

/-! The decoder's fields are the fields of R91, read by `Field.get`. -/

theorem val_reg_ofNat_toNat (b : BitVec 5) : (Fin.ofNat 32 b.toNat).val = b.toNat :=
  Nat.mod_eq_of_lt b.isLt

theorem toNat_opField (w : Word) : (opField w).toNat = Field.op.get w :=
  (Field.op.get_eq_extractLsb' w).symm

theorem val_rsField (w : Word) : (rsField w).val = Field.rs.get w :=
  (val_reg_ofNat_toNat _).trans (Field.rs.get_eq_extractLsb' w).symm

theorem val_rtField (w : Word) : (rtField w).val = Field.rt.get w :=
  (val_reg_ofNat_toNat _).trans (Field.rt.get_eq_extractLsb' w).symm

theorem toNat_subField (w : Word) : (subField w).toNat = Field.rt.get w :=
  (Field.rt.get_eq_extractLsb' w).symm

theorem val_rdField (w : Word) : (rdField w).val = Field.rd.get w :=
  (val_reg_ofNat_toNat _).trans (Field.rd.get_eq_extractLsb' w).symm

theorem toNat_saField (w : Word) : (saField w).toNat = Field.sa.get w :=
  (Field.sa.get_eq_extractLsb' w).symm

theorem toNat_functField (w : Word) : (functField w).toNat = Field.funct.get w :=
  (Field.funct.get_eq_extractLsb' w).symm

theorem toNat_immField (w : Word) : (immField w).toNat = Field.imm.get w :=
  (Field.imm.get_eq_extractLsb' w).symm

theorem toNat_indexField (w : Word) : (indexField w).toNat = Field.index.get w :=
  (Field.index.get_eq_extractLsb' w).symm

/-- The primary opcode is the top of the word, so nothing is left to cut off after the division. -/
theorem get_op_eq_div (w : Word) : Field.op.get w = w.toNat / 2 ^ 26 := by
  have hw : w.toNat / 2 ^ 26 < 2 ^ 6 := Nat.div_lt_of_lt_mul w.isLt
  exact (Field.op.get_eq_div_mod w).trans (Nat.mod_eq_of_lt hw)

/-- A field that starts at bit 0 is the remainder alone. -/
theorem Field.get_eq_mod (f : Field) (hlo : f.lo = 0) (w : Word) : f.get w = w.toNat % 2 ^ f.width := by
  rw [f.get_eq_div_mod, hlo, Nat.pow_zero, Nat.div_one]

/-- Settles O3: what is read back is the value modulo the field's width, and a value that fits is its own remainder. -/
theorem fieldValueRoundTrip : Obligations.FieldValueRoundTrip := by
  intro f v w hfits
  rw [f.get_set, Nat.mod_eq_of_lt ((f.fits_iff v).mp hfits)]

/-- Settles O4: each of the decoder's fields is `Field.get` of its field, which is a division and a remainder. -/
theorem fieldsAreFixedBitRanges : Obligations.FieldsAreFixedBitRanges := by
  intro w
  rw [toNat_opField, val_rsField, val_rtField, toNat_subField, val_rdField, toNat_saField, toNat_functField,
    toNat_immField, toNat_indexField]
  have hop := get_op_eq_div w
  have hrs := Field.rs.get_eq_div_mod w
  have hrt := Field.rt.get_eq_div_mod w
  have hrd := Field.rd.get_eq_div_mod w
  have hsa := Field.sa.get_eq_div_mod w
  have hfunct := Field.funct.get_eq_mod rfl w
  have himm := Field.imm.get_eq_mod rfl w
  have hindex := Field.index.get_eq_mod rfl w
  exact ⟨hop, hop, hrs, hrs, hrt, hrt, hrt, hrd, hrd, hsa, hsa, hfunct, hfunct, himm, himm, hindex, hindex⟩

end Sys2Proof

/-! ### What one step writes: registers, `hi` and `lo`, the bytes stored (40_execution_core.md R129) -/

namespace Sys2Proof.Machine

theorem destination_of_writesHiLo {i : Instr} (h : writesHiLo i = true) : destination i = none := by
  unfold writesHiLo at h
  split at h
  case h_7 => cases h
  all_goals rfl

/-- The three stores are the only instructions that may write memory. -/
theorem store_of_writesMemory {i : Instr} (h : writesMemory i = true) :
    (∃ rt base offset, i = .sb rt base offset) ∨ (∃ rt base offset, i = .sh rt base offset) ∨
      ∃ rt base offset, i = .sw rt base offset := by
  unfold writesMemory at h
  split at h
  · exact .inl ⟨_, _, _, rfl⟩
  · exact .inr (.inl ⟨_, _, _, rfl⟩)
  · exact .inr (.inr ⟨_, _, _, rfl⟩)
  · cases h

/-- SB and SH write a whole word back, but the word is the one that was there outside the bytes stored. -/
theorem get_setWord_writtenWord {i : Instr} {s : State} {ea v b : Word} {n : Nat} (hw : writesMemory i = true)
    (hacc : memoryAccess i s = some (ea, n)) (hal : ea.toNat % n = 0) (hv : writtenWord i s = some v)
    (hb : ∀ k < n, b ≠ ea + BitVec.ofNat 32 k) : (s.mem.setWord (wordAddress ea) v).get b = s.mem.get b := by
  rcases store_of_writesMemory hw with ⟨rt, base, offset, rfl⟩ | ⟨rt, base, offset, rfl⟩ | ⟨rt, base, offset, rfl⟩
  all_goals
    cases hacc
    cases hv
  · have h0 := hb 0 (by decide)
    rw [get_setWord_setByteLane, if_neg (by simpa using h0)]
  · have h0 := hb 0 (by decide)
    have h1 := hb 1 (by decide)
    rw [get_setWord_setHalfLane _ _ _ hal, if_neg (by simpa using h0), if_neg h1]
  · rw [wordAddress_of_aligned hal]
    exact Memory.get_setWord_of_ne hb

section Completes
variable {i : Instr} {s : State} {e : Effects} {m : Memory}

theorem Completes.reg_of_ne_destination (hc : Completes i s e m) {r : Reg} (hr : destination i ≠ some r) :
    (State.commit { s with mem := m } e).reg r = s.reg r := by
  have hgpr := hc.gpr
  cases he : e.gpr with
  | none => exact State.reg_commit_none _ he r
  | some p =>
    have hne : r ≠ p.1 := fun h => hr (by simp [← hgpr, he, h])
    exact State.reg_commit_but _ he r hne

theorem Completes.sameHiLo (hc : Completes i s e m) (hw : writesHiLo i = false) :
    SameHiLo s (State.commit { s with mem := m } e) := by
  obtain ⟨hhi, hlo⟩ := hc.hiLo hw
  simp [SameHiLo, hhi, hlo]

theorem Completes.sameMemory (hc : Completes i s e m) (hw : writesMemory i = false) :
    SameMemory s (State.commit { s with mem := m } e) := by
  rw [hc.same hw]
  exact s.commit_sameMemory e

theorem Completes.sameMemoryBut (hc : Completes i s e m) (hw : writesMemory i = true) :
    ∃ ea n, memoryAccess i s = some (ea, n) ∧ SameMemoryBut ea n s (State.commit { s with mem := m } e) := by
  obtain ⟨ea, n, v, hacc, hal, hv, -, rfl⟩ := hc.stored hw
  exact ⟨ea, n, hacc, fun b hb => get_setWord_writtenWord hw hacc hal hv hb, rfl, rfl⟩

end Completes

/-- Settles O13: a step that completes is the commit of the effects `Completes` describes. -/
theorem stepWritesOneRegisterAtMost : Obligations.StepWritesOneRegisterAtMost := by
  intro s t i hfetch hstep
  rw [step_of_fetch hfetch] at hstep
  obtain ⟨e, m, rfl, hc⟩ := exec_next hstep
  exact ⟨fun r hr => hc.reg_of_ne_destination hr, hc.sameHiLo, destination_of_writesHiLo, hc.sameMemory,
    hc.sameMemoryBut⟩

end Sys2Proof.Machine

/-! ### Register-type arithmetic in integers: overflow, shifts, products, quotients (41_register_type.md R151 to R154) -/

namespace Sys2Proof.Machine

/-- The model's sign rule for an addition is the library's signed overflow, which is about the exact sum (R151). -/
theorem addOverflows_iff_not_fitsSigned (a b : Word) :
    addOverflows a b = true ↔ ¬FitsSigned (a.toInt + b.toInt) := by
  have h : addOverflows a b = a.saddOverflow b := (BitVec.saddOverflow_eq a b).symm
  simp only [h, BitVec.saddOverflow, Bool.or_eq_true, decide_eq_true_eq]
  omega

/-- The model's sign rule for a subtraction is the library's signed overflow, which is about the exact difference
(R151). -/
theorem subOverflows_iff_not_fitsSigned (a b : Word) :
    subOverflows a b = true ↔ ¬FitsSigned (a.toInt - b.toInt) := by
  have h : subOverflows a b = a.ssubOverflow b := by
    rw [BitVec.ssubOverflow_eq, subOverflows]
    cases a.msb <;> cases b.msb <;> cases (a - b).msb <;> rfl
  simp only [h, BitVec.ssubOverflow, Bool.or_eq_true, decide_eq_true_eq]
  omega

theorem add_eq_ofInt (a b : Word) : a + b = BitVec.ofInt 32 (a.toInt + b.toInt) := by
  simp [BitVec.ofInt_add]

theorem sub_eq_ofInt (a b : Word) : a - b = BitVec.ofInt 32 (a.toInt - b.toInt) := by
  simp [Int.sub_eq_add_neg, BitVec.ofInt_add, BitVec.ofInt_neg, BitVec.sub_eq_add_neg]

theorem sub_eq_ofInt_toNat (a b : Word) : a - b = BitVec.ofInt 32 (a.toNat - b.toNat : Int) := by
  simp [Int.sub_eq_add_neg, BitVec.ofInt_add, BitVec.ofInt_neg, BitVec.sub_eq_add_neg]

theorem shiftLeft_eq_ofNat (v : Word) (n : BitVec 5) :
    shiftLeft v n = BitVec.ofNat 32 (v.toNat * 2 ^ n.toNat) := by
  apply BitVec.eq_of_toNat_eq
  simp [shiftLeft, Nat.shiftLeft_eq]

theorem shiftRightLogical_eq_ofNat (v : Word) (n : BitVec 5) :
    shiftRightLogical v n = BitVec.ofNat 32 (v.toNat / 2 ^ n.toNat) := by
  rw [← Nat.shiftRight_eq_div_pow, ← BitVec.toNat_ushiftRight, BitVec.ofNat_toNat, BitVec.setWidth_eq,
    shiftRightLogical]

theorem shiftRightArithmetic_eq_ofInt (v : Word) (n : BitVec 5) :
    shiftRightArithmetic v n = BitVec.ofInt 32 (v.toInt / 2 ^ n.toNat) := by
  simp [shiftRightArithmetic, BitVec.sshiftRight, Int.shiftRight_eq_div_pow]

@[simp] theorem toNat_variableAmount (v : Word) : (variableAmount v).toNat = v.toNat % 32 := by
  simp [variableAmount]

theorem signedProduct_eq_ofInt (a b : Word) : signedProduct a b = BitVec.ofInt 64 (a.toInt * b.toInt) :=
  (BitVec.ofInt_mul a.toInt b.toInt).symm

theorem unsignedProduct_eq_ofNat (a b : Word) : unsignedProduct a b = BitVec.ofNat 64 (a.toNat * b.toNat) := by
  simp [unsignedProduct, BitVec.ofNat_mul]

/-- The exact signed product of two words fits in 64 bits (R152). -/
theorem toInt_ofInt_mul_toInt (a b : Word) :
    (BitVec.ofInt 64 (a.toInt * b.toInt)).toInt = a.toInt * b.toInt := by
  have hlo : -2 ^ 62 ≤ a.toInt * b.toInt := BitVec.le_toInt_mul_toInt
  have hhi : a.toInt * b.toInt ≤ 2 ^ 62 := BitVec.toInt_mul_toInt_le
  exact BitVec.toInt_ofInt_eq_self (by decide) (by omega) (by omega)

/-- The exact unsigned product of two words fits in 64 bits (R152). -/
theorem toNat_ofNat_mul_toNat (a b : Word) :
    (BitVec.ofNat 64 (a.toNat * b.toNat)).toNat = a.toNat * b.toNat :=
  Nat.mod_eq_of_lt BitVec.toNat_mul_toNat_lt

/-! ### The register-type instructions (41_register_type.md R155 to R177) -/

/-- The shape ADD, SUB and ADDI share: the register write of an exact result that fits, or else the overflow fault. -/
theorem writesReg_or_overflow {i : Instr} {s : State} {rd : Reg} {v : Word} {o : Bool} {n : Int}
    (ho : o = true ↔ ¬FitsSigned n) (hv : v = BitVec.ofInt 32 n)
    (h : exec i s = if o then raise .arithmeticOverflow else writeReg s rd v) :
    (FitsSigned n → WritesReg i s rd (BitVec.ofInt 32 n)) ∧
      (¬FitsSigned n → exec i s = .fault .arithmeticOverflow) := by
  subst hv
  constructor
  · intro hn
    have hof : ¬o = true := fun ht => ho.1 ht hn
    exact .intro (h.trans (if_neg hof))
  · intro hn
    exact h.trans (if_pos (ho.2 hn))

/-- An instruction that commits at most `hi` and `lo`: a half it does not write keeps its value. -/
theorem writesHiLo_of_complete {i : Instr} {s : State} {hi lo : Option Word}
    (h : exec i s = complete s { hi := hi, lo := lo }) : WritesHiLo i s (hi.getD s.hi) (lo.getD s.lo) :=
  ⟨_, h, rfl, rfl, s.reg_commit_none rfl, s.commit_sameMemory _, rfl, rfl⟩

/-- Settles O28: the exact sum is written when it fits, and the model's overflow test says when it does not. -/
theorem addResultOrOverflow : Obligations.AddResultOrOverflow := fun _ _ _ _ =>
  writesReg_or_overflow (addOverflows_iff_not_fitsSigned _ _) (add_eq_ofInt _ _) rfl

/-- Settles O29: as for ADD, with the exact difference. -/
theorem subResultOrOverflow : Obligations.SubResultOrOverflow := fun _ _ _ _ =>
  writesReg_or_overflow (subOverflows_iff_not_fitsSigned _ _) (sub_eq_ofInt _ _) rfl

/-- Settles O30: the word written is the sum or the difference of the unsigned values modulo 2^32. -/
theorem unsignedAddAndSubWrap : Obligations.UnsignedAddAndSubWrap := by
  intro s rd rs rt
  rw [← BitVec.add_def, ← sub_eq_ofInt_toNat]
  exact ⟨.intro rfl, .intro rfl⟩

/-- Settles O31: each is a register write of the bitwise result. -/
theorem logicResults : Obligations.LogicResults := fun _ _ _ _ => ⟨.intro rfl, .intro rfl, .intro rfl⟩

/-- Settles O32: `boolWord` of the comparison is the word 1 or 0. -/
theorem comparisonResults : Obligations.ComparisonResults := by
  intro s rd rs rt
  have hslt : WritesReg (.slt rd rs rt) s rd (boolWord (signedLess (s.reg rs) (s.reg rt))) := .intro rfl
  have hsltu : WritesReg (.sltu rd rs rt) s rd (boolWord (unsignedLess (s.reg rs) (s.reg rt))) := .intro rfl
  simp only [boolWord, signedLess, unsignedLess, decide_eq_true_eq] at hslt hsltu
  exact ⟨hslt, hsltu⟩

/-- Settles O33: a shift is a multiplication or a division by a power of two. -/
theorem fixedShiftResults : Obligations.FixedShiftResults := by
  intro s rd rt sa
  rw [← shiftLeft_eq_ofNat, ← shiftRightLogical_eq_ofNat, ← shiftRightArithmetic_eq_ofInt]
  exact ⟨.intro rfl, .intro rfl, .intro rfl⟩

/-- Settles O34: the fixed shifts' arithmetic, with the amount the value of rs modulo 32. -/
theorem variableShiftResults : Obligations.VariableShiftResults := by
  intro s rd rt rs
  rw [← toNat_variableAmount, ← shiftLeft_eq_ofNat, ← shiftRightLogical_eq_ofNat, ← shiftRightArithmetic_eq_ofInt]
  exact ⟨.intro rfl, .intro rfl, .intro rfl⟩

/-- Settles O35: the 64-bit product that is split is the exact product, which fits. -/
theorem productsAreExact : Obligations.ProductsAreExact := by
  intro s rs rt
  refine ⟨?_, ?_, toInt_ofInt_mul_toInt _ _, toNat_ofNat_mul_toNat _ _⟩
  · rw [← signedProduct_eq_ofInt]
    exact .intro (p := (upperWord _, lowerWord _)) rfl
  · rw [← unsignedProduct_eq_ofNat]
    exact .intro (p := (upperWord _, lowerWord _)) rfl

/-- Settles O37: the quotient and remainder of the natural numbers, for a divisor that is not zero. -/
theorem unsignedDivision : Obligations.UnsignedDivision := by
  intro s rs rt
  refine ⟨fun h0 => if_pos h0, fun h0 => ⟨(s.reg rs).toNat / (s.reg rt).toNat, (s.reg rs).toNat % (s.reg rt).toNat,
    ?_, ?_, ?_, ?_⟩⟩
  · exact (Nat.div_add_mod' _ _).symm
  · exact Nat.mod_lt _ (BitVec.toNat_pos_of_ne_zero h0)
  · exact (Nat.div_le_self _ _).trans_lt (s.reg rs).isLt
  · exact WritesHiLo.intro (p := unsignedQuotient _ _) (if_neg h0)

/-- Settles O38: MFHI and MFLO are register writes, MTHI and MTLO commit one half alone. -/
theorem accumulatorTransfers : Obligations.AccumulatorTransfers := fun s _ rs =>
  ⟨.intro rfl, .intro rfl, writesHiLo_of_complete (hi := some (s.reg rs)) (lo := none) rfl,
    writesHiLo_of_complete (hi := none) (lo := some (s.reg rs)) rfl⟩

end Sys2Proof.Machine

/-! ### The branch family (42_branch_family.md R201 to R204) -/

namespace Sys2Proof.Machine

theorem signImm_eq_ofInt (imm : Half) : signImm imm = BitVec.ofInt 32 imm.toInt := rfl

/-- Shifting by two bits is multiplying by four, also for a negative offset. -/
theorem signImm_shiftLeft_two (offset : Half) : signImm offset <<< 2 = BitVec.ofInt 32 (4 * offset.toInt) := by
  rw [signImm_eq_ofInt, BitVec.shiftLeft_eq_mul_twoPow, BitVec.mul_comm, BitVec.ofInt_mul]
  rfl

theorem branchTarget_eq_add_ofInt (s : State) (offset : Half) :
    branchTarget s offset = s.npc + BitVec.ofInt 32 (4 * offset.toInt) :=
  congrArg (s.npc + ·) (signImm_shiftLeft_two offset)

theorem isNegative_iff (a : Word) : isNegative a = true ↔ a.toInt < 0 := decide_eq_true_iff

theorem isNonNegative_iff (a : Word) : isNonNegative a = true ↔ 0 ≤ a.toInt := decide_eq_true_iff

/-- Settles O40: each is a branch on the model's sign test, and its target is `npc` plus four times the offset. -/
theorem signBranches : Obligations.SignBranches := by
  intro s rs offset
  rw [← branchTarget_eq_add_ofInt]
  exact ⟨.intro (isNegative_iff _) rfl, .intro (isNonNegative_iff _) rfl⟩

end Sys2Proof.Machine

/-! ### Immediate arithmetic and logic (43_immediate_alu.md R221 to R228) -/

namespace Sys2Proof.Machine

@[simp] theorem toInt_signImm (imm : Half) : (signImm imm).toInt = imm.toInt :=
  BitVec.toInt_signExtend_of_le (by decide)

/-- A word's unsigned value is its signed value, lifted by 2^32 when that is negative. -/
theorem toNat_eq_toNat_ite_toInt (a : Word) :
    a.toNat = (if a.toInt < 0 then a.toInt + 4294967296 else a.toInt).toNat := by
  have hlt : a.toNat < 4294967296 := a.isLt
  have hcond := BitVec.toInt_eq_toNat_cond a
  omega

theorem add_signImm_eq_ofInt (a : Word) (imm : Half) :
    a + signImm imm = BitVec.ofInt 32 (a.toNat + imm.toInt) := by
  simp [signImm_eq_ofInt, BitVec.ofInt_add]

theorem boolWord_signedLess (a b : Word) :
    boolWord (signedLess a b) = if a.toInt < b.toInt then 1#32 else 0#32 := by
  simp only [boolWord, signedLess, decide_eq_true_eq]

theorem boolWord_unsignedLess (a b : Word) :
    boolWord (unsignedLess a b) = if a.toNat < b.toNat then 1#32 else 0#32 := by
  simp only [boolWord, unsignedLess, decide_eq_true_eq]

theorem zeroImm_eq_ofNat (imm : Half) : zeroImm imm = BitVec.ofNat 32 imm.toNat :=
  (BitVec.ofNat_toNat 32 imm).symm

/-- Appending sixteen zero bits is multiplying by 2^16. -/
theorem upperImm_eq_ofNat (imm : Half) : upperImm imm = BitVec.ofNat 32 (imm.toNat * 2 ^ 16) := by
  have hlt : imm.toNat * 2 ^ 16 < 2 ^ 32 := by omega
  apply BitVec.eq_of_toNat_eq
  rw [upperImm, BitVec.toNat_append, Nat.shiftLeft_eq]
  exact (Nat.or_zero _).trans (Nat.mod_eq_of_lt hlt).symm

/-- Settles O46: as for ADD, with the sign-extended immediate, whose signed value is the immediate's. -/
theorem addiResultOrOverflow : Obligations.AddiResultOrOverflow := by
  intro s rt rs imm
  rw [← toInt_signImm]
  exact writesReg_or_overflow (addOverflows_iff_not_fitsSigned _ _) (add_eq_ofInt _ _) rfl

/-- Settles O47: the comparisons are those of SLT and SLTU with the sign-extended immediate in the place of rt. -/
theorem immediateArithmeticResults : Obligations.ImmediateArithmeticResults := by
  intro s rt rs imm
  rw [← add_signImm_eq_ofInt, ← toInt_signImm, ← toNat_eq_toNat_ite_toInt, ← boolWord_signedLess,
    ← boolWord_unsignedLess]
  exact ⟨.intro rfl, .intro rfl, .intro rfl⟩

/-- Settles O48: the zero-extended immediate is the immediate's unsigned value as a word. -/
theorem immediateLogicResults : Obligations.ImmediateLogicResults := by
  intro s rt rs imm
  rw [← zeroImm_eq_ofNat, ← upperImm_eq_ofNat]
  exact ⟨.intro rfl, .intro rfl, .intro rfl, .intro rfl⟩

end Sys2Proof.Machine

/-! ### Immediate branches (44_branch_jump.md R241 to R244) -/

namespace Sys2Proof.Machine

theorem isNonPositive_iff (a : Word) : isNonPositive a = true ↔ a.toInt ≤ 0 := decide_eq_true_iff

theorem isPositive_iff (a : Word) : isPositive a = true ↔ 0 < a.toInt := decide_eq_true_iff

/-- Settles O42: each is a branch on the model's test of the two registers, and its target is `npc` plus four times the
offset. -/
theorem equalityBranches : Obligations.EqualityBranches := by
  intro s rs rt offset
  rw [← branchTarget_eq_add_ofInt]
  exact ⟨.intro beq_iff_eq rfl, .intro bne_iff_ne rfl⟩

/-- Settles O43: each is a branch on the model's test of the signed value against zero, with the same target. -/
theorem zeroBranches : Obligations.ZeroBranches := by
  intro s rs offset
  rw [← branchTarget_eq_add_ofInt]
  exact ⟨.intro (isNonPositive_iff _) rfl, .intro (isPositive_iff _) rfl⟩

end Sys2Proof.Machine

/-! ### Loads and stores (45_load_store.md R263, R264, R270) -/

namespace Sys2Proof.Machine

/-! One lemma for each way an aligned access can go: the memory's answer leaves one case of the `_cases` lemma of
Laws/Ops.lean. -/

theorem load_of_status {s : State} {rt : Reg} {ea : Word} {n : Nat} {f : Word → Word} {status : MemStatus}
    (ha : ea.toNat % n = 0) (hr : s.mem.answer (.read (wordAddress ea)) = some status) :
    load s rt ea n f = .fault (.memRead status) := by
  simpa [ha, hr] using load_cases s rt ea n f

theorem storeLane_of_status {s : State} {ea : Word} {n : Nat} {f : Word → Word} {status : MemStatus}
    (ha : ea.toNat % n = 0) (hr : s.mem.answer (.read (wordAddress ea)) = some status) :
    storeLane s ea n f = .fault (.memRead status) := by
  simpa [ha, hr] using storeLane_cases s ea n f

theorem storeLane_of_answer {s : State} {ea : Word} {n : Nat} {f : Word → Word} (ha : ea.toNat % n = 0)
    (hr : Answers s (.read (wordAddress ea))) :
    storeLane s ea n f = storeWordAt s (wordAddress ea) (f (s.mem.word (wordAddress ea))) := by
  simpa [ha, hr] using storeLane_cases s ea n f

theorem storeWordAt_of_status {s : State} {a v : Word} {status : MemStatus}
    (hw : s.mem.answer (.write a v) = some status) : storeWordAt s a v = .fault (.memWrite a status) := by
  simpa [hw] using storeWordAt_cases s a v

theorem storeWordAt_of_answer {s : State} {a v : Word} (hw : Answers s (.write a v)) :
    storeWordAt s a v = .next (State.commit { s with mem := s.mem.setWord a v } {}) := by
  simpa [hw] using storeWordAt_cases s a v

/-- An instruction whose meaning is a word write that the memory answers stores the bytes that the write changes. -/
theorem Stores.intro {i : Instr} {s : State} {ea a v : Word} {bytes : List Byte} (h : exec i s = storeWordAt s a v)
    (hw : Answers s (.write a v))
    (hin : ∀ k (hk : k < bytes.length), (s.mem.setWord a v).get (ea + BitVec.ofNat 32 k) = bytes[k])
    (hout : ∀ b, (∀ k < bytes.length, b ≠ ea + BitVec.ofNat 32 k) → (s.mem.setWord a v).get b = s.mem.get b) :
    Stores i s ea bytes := by
  obtain ⟨hregs, hhilo, hadv⟩ := commit_withMem s (s.mem.setWord a v)
  exact ⟨_, h.trans (storeWordAt_of_answer hw), hin, ⟨hout, rfl, rfl⟩, hregs, hhilo, hadv⟩

/-- Of the four bytes of the containing word, the one at the effective address is the lane's. -/
theorem wordAddress_add_ofNat_eq_iff {ea : Word} {k : Nat} (hk : k < 4) :
    wordAddress ea + BitVec.ofNat 32 k = ea ↔ k = lane ea := by
  constructor
  · intro h
    exact add_ofNat_inj hk (lane_lt ea) (h.trans (wordAddress_add_lane ea).symm)
  · rintro rfl
    exact wordAddress_add_lane ea

/-- The word a byte store writes back holds the new byte at the effective address and what was read elsewhere
(20_memory.md R68). -/
theorem byteOfWord_setByteLane_word (m : Memory) (ea : Word) (v : Byte) {k : Nat} (hk : k < 4) :
    byteOfWord (setByteLane (m.word (wordAddress ea)) (lane ea) v) k =
      if wordAddress ea + BitVec.ofNat 32 k = ea then v else m.get (wordAddress ea + BitVec.ofNat 32 k) := by
  rw [byteOfWord_setByteLane _ _ hk (lane_lt ea), byteOfWord_word _ _ hk]
  simp only [wordAddress_add_ofNat_eq_iff hk]

/-- Settles O49: a load without an alignment to miss, and the lane it takes is the byte at the effective address. -/
theorem loadByteResults : Obligations.LoadByteResults := by
  intro s rt base offset
  have hal := Nat.mod_one (effectiveAddress s base offset).toNat
  refine ⟨fun hr => ?_, fun status hr => ⟨load_of_status hal hr, load_of_status hal hr⟩⟩
  rw [← byteLane_word]
  exact ⟨.intro (load_of_answer hal hr), .intro (load_of_answer hal hr)⟩

/-- Settles O53: the word written is the word read with one lane replaced, so that the write changes one byte. -/
theorem storeByteResult : Obligations.StoreByteResult := by
  intro s rt base offset
  have hal := Nat.mod_one (effectiveAddress s base offset).toNat
  refine ⟨fun hr => ⟨_, fun k hk => byteOfWord_setByteLane_word _ _ _ hk, fun hw => ?_, fun status hw => ?_⟩,
    fun status hr => storeLane_of_status hal hr⟩
  · refine .intro (storeLane_of_answer hal hr) hw (fun k hk => ?_)
      (fun b hb => get_setWord_writtenWord (i := .sb rt base offset) rfl rfl hal rfl hb)
    obtain rfl : k = 0 := Nat.lt_one_iff.mp hk
    rw [get_setWord_setByteLane, if_pos (BitVec.add_zero _)]
    rfl
  · exact (storeLane_of_answer hal hr).trans (storeWordAt_of_status hw)

end Sys2Proof.Machine

/-! ### The causes of faults (60_exceptions.md R301, R303) -/

namespace Sys2Proof.Machine

/-- Settles O18: the causes of the fault are the model's overflow tests, which speak of the exact result; that an
overflow faults is the second half of the statements on ADD, SUB and ADDI. -/
theorem overflowFaultsExactlyFromSignedAddSub : Obligations.OverflowFaultsExactlyFromSignedAddSub := by
  intro i s
  constructor
  · intro hfault
    obtain ⟨rd, rs, rt, hi, ho⟩ | ⟨rd, rs, rt, hi, ho⟩ | ⟨rt, rs, imm, hi, ho⟩ := exec_fault hfault
    · exact .inl ⟨rd, rs, rt, hi, (addOverflows_iff_not_fitsSigned _ _).1 ho⟩
    · exact .inr (.inl ⟨rd, rs, rt, hi, (subOverflows_iff_not_fitsSigned _ _).1 ho⟩)
    · rw [addOverflows_iff_not_fitsSigned, toInt_signImm] at ho
      exact .inr (.inr ⟨rt, rs, imm, hi, ho⟩)
  · rintro (⟨rd, rs, rt, rfl, hn⟩ | ⟨rd, rs, rt, rfl, hn⟩ | ⟨rt, rs, imm, rfl, hn⟩)
    · exact (addResultOrOverflow s rd rs rt).2 hn
    · exact (subResultOrOverflow s rd rs rt).2 hn
    · exact (addiResultOrOverflow s rt rs imm).2 hn

/-- A fault of a step comes from its fetch or from the instruction fetched. -/
theorem step_fault_iff {s : State} {f : Fault} :
    step s = .fault f ↔ fetch s = .error f ∨ ∃ i, fetch s = .ok i ∧ exec i s = .fault f := by
  cases hf : fetch s with
  | error g => simp [step_of_fetch_error hf]
  | ok i => simp [step_of_fetch hf]

/-- Of the three ways a fetch fails, the one with InvalidInstruction is a word that selects no instruction. -/
theorem fetch_invalidInstruction_iff {s : State} :
    fetch s = .error .invalidInstruction ↔
      s.pc.toNat % 4 = 0 ∧ Answers s (.read s.pc) ∧ ∃ e, decodeWord (s.mem.word s.pc) = .error e := by
  obtain ⟨ha, hf⟩ | ⟨-, status, hr, hf⟩ | ⟨ha, hr, ⟨e, hd, hf⟩ | ⟨i, hd, hf⟩⟩ := fetch_cases s
  · simp [hf, ha]
  · simp [hf, hr]
  · exact iff_of_true hf ⟨ha, hr, e, hd⟩
  · simp [hf, hd]

/-- Executing an instruction ends with InvalidInstruction for a division by zero alone. -/
theorem exec_invalidInstruction_iff {i : Instr} {s : State} :
    exec i s = .fault .invalidInstruction ↔
      (∃ rs rt, i = .div rs rt ∧ s.reg rt = 0#32) ∨ ∃ rs rt, i = .divu rs rt ∧ s.reg rt = 0#32 := by
  constructor
  · exact exec_fault
  · rintro (⟨rs, rt, rfl, h0⟩ | ⟨rs, rt, rfl, h0⟩)
    · exact if_pos h0
    · exact (unsignedDivision s rs rt).1 h0

/-- Settles O19: the step's fault is the fetch's, for an undecodable word, or the instruction's, for a division by
zero. -/
theorem invalidInstructionCauses : Obligations.InvalidInstructionCauses := by
  intro s
  rw [step_fault_iff, fetch_invalidInstruction_iff]
  refine or_congr_right ?_
  constructor
  · rintro ⟨i, hf, hx⟩
    obtain ⟨rs, rt, rfl, h0⟩ | ⟨rs, rt, rfl, h0⟩ := exec_invalidInstruction_iff.1 hx
    · exact .inl ⟨rs, rt, hf, h0⟩
    · exact .inr ⟨rs, rt, hf, h0⟩
  · rintro (⟨rs, rt, hf, h0⟩ | ⟨rs, rt, hf, h0⟩)
    · exact ⟨_, hf, exec_invalidInstruction_iff.2 (.inl ⟨rs, rt, rfl, h0⟩)⟩
    · exact ⟨_, hf, exec_invalidInstruction_iff.2 (.inr ⟨rs, rt, rfl, h0⟩)⟩

end Sys2Proof.Machine

/-! ### Decoding, encoding and the opcode table (30_encoding.md R92 to R105) -/

namespace Sys2Proof

/-! A word is its bit ranges: two words are equal when the parts of a format are. -/

theorem extractLsb'_eq_iff {v w : Word} {lo n : Nat} :
    v.extractLsb' lo n = w.extractLsb' lo n ↔ ∀ i, lo ≤ i → i < lo + n → v.getLsbD i = w.getLsbD i := by
  constructor
  · intro h i hlo hn
    have hi := congrArg (fun b => b.getLsbD (i - lo)) h
    simpa [show i - lo < n by omega, show lo + (i - lo) = i by omega] using hi
  · intro h
    refine BitVec.eq_of_getLsbD_eq fun i hi => ?_
    simpa [hi] using h (lo + i) (by omega) (by omega)

theorem eq_iff_partsR {v w : Word} :
    v = w ↔ opField v = opField w ∧ v.extractLsb' 21 5 = w.extractLsb' 21 5 ∧ subField v = subField w ∧
      v.extractLsb' 11 5 = w.extractLsb' 11 5 ∧ saField v = saField w ∧ functField v = functField w := by
  constructor
  · rintro rfl
    simp
  · simp only [opField, subField, functField, saField, extractLsb'_eq_iff]
    rintro ⟨hop, hrs, hrt, hrd, hsa, hf⟩
    refine BitVec.eq_of_getLsbD_eq fun i hi => ?_
    grind

/-! The rows: a word matches when its selecting fields hold the row's values. -/

theorem matchesWord_rowR {w b : Word} (hb : b &&& 0xFC00003F#32 = b) :
    (rowR b).matchesWord w = true ↔ opField w = b.extractLsb' 26 6 ∧ functField w = b.extractLsb' 0 6 := by
  have h6 (x : BitVec 6) : x &&& 0x3F#6 = x := BitVec.and_allOnes
  rw [OpcodeRow.matchesWord, rowR, beq_iff_eq]
  conv_lhs => rw [← hb, eq_iff_partsR]
  simp [opField, subField, functField, saField, BitVec.extractLsb'_and, h6]

theorem matchesWord_rowB {w b : Word} (hb : b &&& 0xFC1F0000#32 = b) :
    (rowB b).matchesWord w = true ↔ opField w = b.extractLsb' 26 6 ∧ subField w = b.extractLsb' 16 5 := by
  have h6 (x : BitVec 6) : x &&& 0x3F#6 = x := BitVec.and_allOnes
  have h5 (x : BitVec 5) : x &&& 0x1F#5 = x := BitVec.and_allOnes
  rw [OpcodeRow.matchesWord, rowB, beq_iff_eq]
  conv_lhs => rw [← hb, eq_iff_partsR]
  simp [opField, subField, functField, saField, BitVec.extractLsb'_and, h6, h5]

theorem matchesWord_rowI {w b : Word} (hb : b &&& 0xFC000000#32 = b) :
    (rowI b).matchesWord w = true ↔ opField w = b.extractLsb' 26 6 := by
  have h6 (x : BitVec 6) : x &&& 0x3F#6 = x := BitVec.and_allOnes
  rw [OpcodeRow.matchesWord, rowI, beq_iff_eq]
  conv_lhs => rw [← hb, eq_iff_partsR]
  simp [opField, subField, functField, saField, BitVec.extractLsb'_and, h6]

theorem row_mem_opcodeRows (i : Instr) : i.row ∈ opcodeRows := by
  cases i
  all_goals simp [Instr.row, opcodeRows, registerTypeRows, branchFamilyRows, opcodeOnlyRows]

/-- The word matches the instruction's row and holds its operands in their fields. -/
def Instr.Fits (i : Instr) (w : Word) : Prop := i.row.matchesWord w = true ∧ ∀ p ∈ i.operands, p.1.get w = p.2

/-! Every arm of the decoder answers an instruction whose row selects that arm, with the word's own fields. -/

theorem fits_of_decodeRegisterType {w : Word} {i : Instr} (hop : opField w = 0#6)
    (h : decodeRegisterType w = .ok i) : i.Fits w := by
  unfold decodeRegisterType at h
  split at h
  all_goals cases h
  all_goals
    simp [Instr.Fits, Instr.row, matchesWord_rowR, Instr.operands, val_rsField, val_rtField, val_rdField,
      toNat_saField, *]

theorem fits_of_decodeBranchFamily {w : Word} {i : Instr} (hop : opField w = 1#6)
    (h : decodeBranchFamily w = .ok i) : i.Fits w := by
  unfold decodeBranchFamily at h
  split at h
  all_goals cases h
  all_goals
    simp [Instr.Fits, Instr.row, matchesWord_rowB, Instr.operands, val_rsField, toNat_immField, *]

theorem fits_of_decodeWord {w : Word} {i : Instr} (h : decodeWord w = .ok i) : i.Fits w := by
  unfold decodeWord at h
  split at h
  case h_1 hop => exact fits_of_decodeRegisterType hop h
  case h_2 hop => exact fits_of_decodeBranchFamily hop h
  all_goals cases h
  all_goals
    simp [Instr.Fits, Instr.row, matchesWord_rowI, Instr.operands, val_rsField, val_rtField,
      toNat_immField, toNat_indexField, *]

/-- The row's selecting fields lead the decoder to the instruction, and the operands are the fields it then reads. -/
theorem decodeWord_of_fits {w : Word} {i : Instr} (h : i.Fits w) : decodeWord w = .ok i := by
  obtain ⟨hrow, hops⟩ := h
  cases i
  all_goals
    simp [Instr.row, matchesWord_rowR, matchesWord_rowB, matchesWord_rowI] at hrow
    simp [Instr.operands] at hops
    simp [decodeWord, decodeRegisterType, decodeBranchFamily, hrow, Fin.ext_iff, ← BitVec.toNat_inj, val_rsField,
      val_rtField, val_rdField, toNat_saField, toNat_immField, toNat_indexField, hops]

/-- The decoder said once, for both directions. -/
theorem decodeWord_eq_ok_iff {w : Word} {i : Instr} : decodeWord w = .ok i ↔ i.Fits w :=
  ⟨fits_of_decodeWord, decodeWord_of_fits⟩

/-! The encoding: the row's bits with each operand put into its field. -/

theorem Field.set_zero_zero (f : Field) : f.set 0 0#32 = 0#32 := by
  simp [Field.set]

theorem encodeR_eq_or (rs rt rd sa : BitVec 5) (f : BitVec 6) :
    encodeR rs rt rd sa f = f.setWidth 32 ||| Field.rs.set rs.toNat 0#32 ||| Field.rt.set rt.toNat 0#32 |||
      Field.rd.set rd.toNat 0#32 ||| Field.sa.set sa.toNat 0#32 := by
  refine BitVec.eq_of_getLsbD_eq fun i hi => ?_
  simp only [encodeR, BitVec.getLsbD_append, BitVec.getLsbD_or, Field.getLsbD_set, BitVec.getLsbD_setWidth, Field.lo,
    Field.width, BitVec.testBit_toNat, BitVec.getLsbD_zero]
  grind

theorem encodeI_eq_or (op : BitVec 6) (rs rt : BitVec 5) (imm : Half) :
    encodeI op rs rt imm = (op ++ 0#26) ||| Field.rs.set rs.toNat 0#32 ||| Field.rt.set rt.toNat 0#32 |||
      Field.imm.set imm.toNat 0#32 := by
  refine BitVec.eq_of_getLsbD_eq fun i hi => ?_
  simp only [encodeI, BitVec.getLsbD_append, BitVec.getLsbD_or, Field.getLsbD_set, Field.lo, Field.width,
    BitVec.testBit_toNat, BitVec.getLsbD_zero]
  grind

theorem encodeJ_eq_or (op : BitVec 6) (index : BitVec 26) :
    encodeJ op index = (op ++ 0#26) ||| Field.index.set index.toNat 0#32 := by
  refine BitVec.eq_of_getLsbD_eq fun i hi => ?_
  simp only [encodeJ, BitVec.getLsbD_append, BitVec.getLsbD_or, Field.getLsbD_set, Field.lo, Field.width,
    BitVec.testBit_toNat, BitVec.getLsbD_zero]
  grind

theorem toNat_regBits (r : Reg) : (regBits r).toNat = r.val := by
  simp [regBits]

/-- In the branch family the sub-function is part of the row (30_encoding.md R95). -/
theorem encodeI_eq_or_sub (op : BitVec 6) (rs sub : BitVec 5) (imm : Half) :
    encodeI op rs sub imm = (op ++ 0#5 ++ sub ++ 0#16) ||| Field.rs.set rs.toNat 0#32 |||
      Field.imm.set imm.toNat 0#32 := by
  refine BitVec.eq_of_getLsbD_eq fun i hi => ?_
  simp only [encodeI, BitVec.getLsbD_append, BitVec.getLsbD_or, Field.getLsbD_set, Field.lo, Field.width,
    BitVec.testBit_toNat, BitVec.getLsbD_zero]
  grind

/-- Every instruction's word is its row's bits and its operands, each in its field. -/
theorem encode_eq_foldl (i : Instr) :
    encode i = i.operands.foldl (fun b p => b ||| p.1.set p.2 0#32) i.row.bits := by
  cases i
  case bltz | bgez | bltzal | bgezal =>
    simp [encode, encodeI_eq_or_sub, toNat_regBits, Instr.row, rowB, Instr.operands]
  all_goals
    simp [encode, encodeR_eq_or, encodeI_eq_or, encodeJ_eq_or, toNat_regBits, Field.set_zero_zero, Instr.row, rowR,
      rowI, Instr.operands]

/-! The bits an instruction uses: disjoint masks, each holding its own part of the encoding. -/

theorem and_or_eq_or_iff {w m n b c : Word} (hb : b &&& m = b) (hc : c &&& n = c) (hd : m &&& n = 0#32) :
    w &&& (m ||| n) = b ||| c ↔ w &&& m = b ∧ w &&& n = c := by
  constructor
  · intro h
    have hbn : b &&& n = 0#32 := by rw [← hb, BitVec.and_assoc, hd, BitVec.and_zero]
    have hcm : c &&& m = 0#32 := by rw [← hc, BitVec.and_assoc, BitVec.and_comm n m, hd, BitVec.and_zero]
    have hm : (m ||| n) &&& m = m := by grind
    have hn : (m ||| n) &&& n = n := by grind
    constructor
    · rw [← hm, ← BitVec.and_assoc, h, BitVec.and_or_distrib_right, hb, hcm, BitVec.or_zero]
    · rw [← hn, ← BitVec.and_assoc, h, BitVec.and_or_distrib_right, hbn, hc, BitVec.zero_or]
  · rintro ⟨rfl, rfl⟩
    exact BitVec.and_or_distrib_left

theorem or_and_or_of_and_eq {m n b c : Word} (hb : b &&& m = b) (hc : c &&& n = c) :
    (b ||| c) &&& (m ||| n) = b ||| c := by
  grind

theorem Field.set_zero_and_mask (f : Field) (v : Nat) : f.set v 0#32 &&& f.mask = f.set v 0#32 := by
  simp [Field.set, BitVec.and_assoc]

/-- The masks and the fields' values put together: equal under the whole mask exactly when equal under each. -/
theorem and_foldl_mask_eq_foldl_set_iff {w : Word} (l : List (Field × Nat)) {m b : Word} (hb : b &&& m = b)
    (hm : ∀ p ∈ l, m &&& p.1.mask = 0#32) (hl : l.Pairwise fun p q => p.1.mask &&& q.1.mask = 0#32) :
    w &&& l.foldl (fun m p => m ||| p.1.mask) m = l.foldl (fun b p => b ||| p.1.set p.2 0#32) b ↔
      w &&& m = b ∧ ∀ p ∈ l, w &&& p.1.mask = p.1.set p.2 0#32 := by
  induction l generalizing m b with
  | nil => simp
  | cons p l ih =>
    obtain ⟨hp, hl⟩ := List.pairwise_cons.1 hl
    have hs := p.1.set_zero_and_mask p.2
    have hmp : m &&& p.1.mask = 0#32 := hm p List.mem_cons_self
    have hb' : (b ||| p.1.set p.2 0#32) &&& (m ||| p.1.mask) = b ||| p.1.set p.2 0#32 := or_and_or_of_and_eq hb hs
    have hm' : ∀ q ∈ l, (m ||| p.1.mask) &&& q.1.mask = 0#32 := fun q hq => by
      rw [BitVec.and_or_distrib_right, hm q (List.mem_cons_of_mem _ hq), hp q hq, BitVec.or_zero]
    rw [List.foldl_cons, List.foldl_cons, ih hb' hm' hl, and_or_eq_or_iff hb hs hmp, List.forall_mem_cons, and_assoc]

theorem Field.mask_rs : Field.rs.mask = 0x03E00000#32 := by decide
theorem Field.mask_rt : Field.rt.mask = 0x001F0000#32 := by decide
theorem Field.mask_rd : Field.rd.mask = 0x0000F800#32 := by decide
theorem Field.mask_sa : Field.sa.mask = 0x000007C0#32 := by decide
theorem Field.mask_imm : Field.imm.mask = 0x0000FFFF#32 := by decide
theorem Field.mask_index : Field.index.mask = 0x03FFFFFF#32 := by decide

theorem operands_disjoint (i : Instr) :
    (∀ p ∈ i.operands, i.row.mask &&& p.1.mask = 0#32) ∧
      i.operands.Pairwise fun p q => p.1.mask &&& q.1.mask = 0#32 := by
  cases i
  all_goals
    simp [Instr.operands, Instr.row, rowR, rowB, rowI, Field.mask_rs, Field.mask_rt, Field.mask_rd, Field.mask_sa,
      Field.mask_imm, Field.mask_index]

theorem row_bits_and_mask (i : Instr) : i.row.bits &&& i.row.mask = i.row.bits := by
  have hrows : ∀ r ∈ opcodeRows, r.bits &&& r.mask = r.bits := by decide
  exact hrows _ (row_mem_opcodeRows i)

theorem operand_fits_field (i : Instr) : ∀ p ∈ i.operands, p.2 < 2 ^ p.1.width := by
  cases i
  all_goals simp [Instr.operands, Field.width] <;> omega

theorem Field.and_mask_eq_set_iff (f : Field) {v : Nat} (hv : v < 2 ^ f.width) (w : Word) :
    w &&& f.mask = f.set v 0#32 ↔ f.get w = v := by
  constructor
  · intro h
    have hg := congrArg f.get h
    rw [f.get_set, Nat.mod_eq_of_lt hv] at hg
    rw [← hg]
    simp [Field.get, BitVec.and_assoc]
  · rintro rfl
    refine BitVec.eq_of_getLsbD_eq fun i hi => ?_
    rw [f.getLsbD_set, BitVec.getLsbD_and, f.getLsbD_mask, f.get_eq_extractLsb', BitVec.testBit_toNat,
      BitVec.getLsbD_extractLsb']
    grind

theorem and_usedMask_eq_encode_iff {w : Word} {i : Instr} : w &&& i.usedMask = encode i ↔ i.Fits w := by
  obtain ⟨hrow, hops⟩ := operands_disjoint i
  rw [Instr.usedMask, encode_eq_foldl, and_foldl_mask_eq_foldl_set_iff _ (row_bits_and_mask i) hrow hops, Instr.Fits,
    OpcodeRow.matchesWord, beq_iff_eq]
  refine and_congr_right fun _ => forall₂_congr fun p hp => ?_
  exact p.1.and_mask_eq_set_iff (operand_fits_field i p hp) w

end Sys2Proof

namespace Sys2Proof
/-! A word that the decoder refuses has none of the values that select a row. -/

theorem not_matchesWord_of_decodeRegisterType {w : Word} {e : DecodeError} (h : decodeRegisterType w = .error e) :
    ∀ r ∈ registerTypeRows, ¬r.matchesWord w = true := by
  unfold decodeRegisterType at h
  split at h
  case h_26 => simp_all [registerTypeRows, -Bool.not_eq_true, matchesWord_rowR]
  all_goals cases h

theorem not_matchesWord_of_decodeBranchFamily {w : Word} {e : DecodeError} (h : decodeBranchFamily w = .error e) :
    ∀ r ∈ branchFamilyRows, ¬r.matchesWord w = true := by
  unfold decodeBranchFamily at h
  split at h
  case h_5 => simp_all [branchFamilyRows, -Bool.not_eq_true, matchesWord_rowB]
  all_goals cases h

theorem not_matchesWord_of_decodeWord {w : Word} {e : DecodeError} (h : decodeWord w = .error e) :
    ∀ r ∈ opcodeRows, ¬r.matchesWord w = true := by
  rw [opcodeRows, List.forall_mem_append, List.forall_mem_append]
  unfold decodeWord at h
  split at h
  case h_1 hop =>
    refine ⟨⟨not_matchesWord_of_decodeRegisterType h, ?_⟩, ?_⟩
    · simp [branchFamilyRows, -Bool.not_eq_true, matchesWord_rowB, hop]
    · simp [opcodeOnlyRows, -Bool.not_eq_true, matchesWord_rowI, hop]
  case h_2 hop =>
    refine ⟨⟨?_, not_matchesWord_of_decodeBranchFamily h⟩, ?_⟩
    · simp [registerTypeRows, -Bool.not_eq_true, matchesWord_rowR, hop]
    · simp [opcodeOnlyRows, -Bool.not_eq_true, matchesWord_rowI, hop]
  case h_27 =>
    simp_all [registerTypeRows, branchFamilyRows, opcodeOnlyRows, -Bool.not_eq_true, matchesWord_rowR,
      matchesWord_rowB, matchesWord_rowI]
  all_goals cases h

theorem foldl_set_and_foldl_mask (l : List (Field × Nat)) {m b : Word} (hb : b &&& m = b) :
    l.foldl (fun b p => b ||| p.1.set p.2 0#32) b &&& l.foldl (fun m p => m ||| p.1.mask) m =
      l.foldl (fun b p => b ||| p.1.set p.2 0#32) b := by
  induction l generalizing m b with
  | nil => exact hb
  | cons p l ih => exact ih (or_and_or_of_and_eq hb (p.1.set_zero_and_mask p.2))

theorem encode_and_usedMask (i : Instr) : encode i &&& i.usedMask = encode i := by
  rw [encode_eq_foldl, Instr.usedMask]
  exact foldl_set_and_foldl_mask _ (row_bits_and_mask i)

theorem decodeWord_eq_ok_iff_encode {w : Word} {i : Instr} : decodeWord w = .ok i ↔ w &&& i.usedMask = encode i :=
  decodeWord_eq_ok_iff.trans and_usedMask_eq_encode_iff.symm

theorem decodeBytes_bytesOfWord (w : Word) (rest : List Byte) :
    decodeBytes (bytesOfWord w ++ rest) = (decodeWord w).map fun i => (i, rest) := by
  have h := decodeBytes_cons (byteOfWord w 0) (byteOfWord w 1) (byteOfWord w 2) (byteOfWord w 3) rest
  rwa [Machine.wordOfBytes_byteOfWord] at h

/-- Settles O2: each side says that the word matches the instruction's row and holds its operands. -/
theorem decodeReadsOnlyUsedBits : Obligations.DecodeReadsOnlyUsedBits := fun _ _ => decodeWord_eq_ok_iff_encode

/-- Settles O1: an encoding sets no bit that the instruction does not use. -/
theorem decodeOfEncode : Obligations.DecodeOfEncode := by
  have hword (i : Instr) : decodeWord (encode i) = .ok i := decodeWord_eq_ok_iff_encode.2 (encode_and_usedMask i)
  refine ⟨hword, fun i rest => ?_⟩
  rw [encodeBytes, decodeBytes_bytesOfWord, hword]
  rfl

theorem decodeWord_error_iff {w : Word} :
    (∃ e, decodeWord w = .error e) ↔ ∀ r ∈ opcodeRows, r.matchesWord w = false := by
  simp only [← Bool.not_eq_true]
  constructor
  · rintro ⟨e, h⟩
    exact not_matchesWord_of_decodeWord h
  · intro h
    cases hd : decodeWord w with
    | error e => exact ⟨e, rfl⟩
    | ok i => exact absurd (fits_of_decodeWord hd).1 (h _ (row_mem_opcodeRows i))

end Sys2Proof

namespace Sys2Proof.Machine

theorem stepCommand_of_fault {s : State} {f : Fault} (h : step s = .fault f) :
    stepCommand s = .ok (f.status, s.afterFault f) := by
  simp [stepCommand, h]

/-- Settles O5: the decoder's table is the opcode table, and a fetch of any other word is the step's fault. -/
theorem unmappedWordsAreInvalid : Obligations.UnmappedWordsAreInvalid := by
  refine ⟨fun w => decodeWord_error_iff, fun w i h => ⟨row_mem_opcodeRows i, (fits_of_decodeWord h).1⟩, ?_⟩
  intro s hal hr hrows
  have hstep := step_of_fetch_error (fetch_invalidInstruction_iff.2 ⟨hal, hr, decodeWord_error_iff.2 hrows⟩)
  exact ⟨hstep, stepCommand_of_fault hstep⟩

end Sys2Proof.Machine

/-! ### The invariant (10_state.md R31, assumption 17) -/

namespace Sys2Proof.Machine

/-- A completed instruction leaves memory as it was or writes one word to it, which keeps the canonical form. -/
theorem Completes.mem_wf {i : Instr} {s : State} {e : Effects} {m : Memory} (hc : Completes i s e m)
    (h : s.mem.wf = true) : m.wf = true := by
  cases hw : writesMemory i with
  | false => rwa [hc.same hw]
  | true =>
    obtain ⟨ea, n, v, -, -, -, -, rfl⟩ := hc.stored hw
    exact Memory.wf_setWord _ _ h

/-- Settles O9: the commit forces register 0 to zero, and memory stays canonical. -/
theorem everyStepKeepsInvariant : Obligations.EveryStepKeepsInvariant := by
  intro s t hs hstep
  obtain ⟨i, -, hexec⟩ := step_next hstep
  obtain ⟨e, m, rfl, hc⟩ := exec_next hexec
  exact ⟨State.commit_reg0 _ e, hc.mem_wf hs.memWf⟩

theorem State.Inv.afterFault {s : State} (hs : s.Inv) (f : Fault) : (s.afterFault f).Inv := by
  cases f with
  | memWrite a status => exact ⟨hs.reg0, spoilWord_wf a hs.memWf⟩
  | _ => exact hs

theorem State.Inv.create {m : Memory} (hm : m.wf = true) : (State.create m).Inv :=
  ⟨by simp, hm⟩

theorem State.Inv.resetCommand {s : State} (hs : s.Inv) : s.resetCommand.Inv :=
  .create hs.memWf

theorem State.Inv.setReg {s : State} (hs : s.Inv) (r : Reg) (v : Word) : (s.setReg r v).Inv := by
  unfold State.setReg
  split
  case isTrue => exact hs
  case isFalse hr =>
    have hne : r.val ≠ 0 := fun h => hr (Fin.ext h)
    refine ⟨?_, hs.memWf⟩
    rw [← hs.reg0]
    exact Vector.getElem_set_ne r.isLt (by decide) hne

/-- Settles O11: reset is construction over the empty memory, which is canonical. -/
theorem resetHasInvariant : Obligations.ResetHasInvariant := .create rfl

theorem State.Inv.stepCommand {s t : State} {st : Status} (hs : s.Inv) (h : stepCommand s = .ok (st, t)) : t.Inv := by
  obtain ⟨u, hstep, hu⟩ | ⟨f, -, hu⟩ | ⟨r, -, hu⟩ := stepCommand_cases s
  all_goals
    rw [hu] at h
    cases h
  · exact everyStepKeepsInvariant s t hs hstep
  · exact hs.afterFault f

/-- Settles O10: a command leaves the core's own state, one with the written item replaced, the state after a step, or
a newly constructed one. -/
theorem everyCommandKeepsInvariant : Obligations.EveryCommandKeepsInvariant := by
  intro c s r t h hcore hs hm
  cases c with
  | create m =>
    cases h
    cases hcore
    exact .create (hm m rfl)
  | destroy =>
    cases h
    cases hcore
  | reset =>
    cases h
    cases hcore
    exact hs.resetCommand
  | step =>
    simp only [command, commandOnCore] at h
    split at h
    case h_1 st u hu =>
      cases h
      cases hcore
      exact hs.stepCommand hu
    case h_2 => cases h
  | setRegister i v =>
    simp only [command, commandOnCore] at h
    split at h
    case isTrue hi =>
      cases h
      cases hcore
      exact hs.setReg _ v
    case isFalse => cases h
  | getRegister i =>
    simp only [command, commandOnCore] at h
    split at h
    case isTrue hi =>
      cases h
      cases hcore
      exact hs
    case isFalse => cases h
  | _ =>
    cases h
    cases hcore
    exact ⟨hs.reg0, hs.memWf⟩

end Sys2Proof.Machine

/-! ### Control flow: the program counter pair, the delay slot, alignment (40_execution_core.md R126, R127, R130) -/

namespace Sys2Proof.Machine

/-- Settles O12: the commit moves the pair, and the target it records is the control transfer's. -/
theorem programCounterPairSequencing : Obligations.ProgramCounterPairSequencing := by
  intro s t hstep
  obtain ⟨i, hfetch, hexec⟩ := step_next hstep
  obtain ⟨e, m, rfl, hc⟩ := exec_next hexec
  refine ⟨i, hfetch, rfl, ?_⟩
  rw [State.commit_npc, hc.target]

theorem npc_of_step {s t : State} {i : Instr} (hfetch : fetch s = .ok i) (hstep : step s = .next t) :
    t.pc = s.npc ∧ t.npc = (controlTarget i s).getD (s.npc + 4#32) := by
  obtain ⟨j, hj, hpc, hnpc⟩ := programCounterPairSequencing s t hstep
  obtain rfl : i = j := Except.ok.inj (hfetch.symm.trans hj)
  exact ⟨hpc, hnpc⟩

/-- Settles O24: the first step's target waits in `npc` while the second step runs the instruction at `pc`. -/
theorem delaySlotAlwaysExecutes : Obligations.DelaySlotAlwaysExecutes := by
  intro s u v i hfetch hu hv
  obtain ⟨hpc, hnpc⟩ := npc_of_step hfetch hu
  obtain ⟨-, -, hvpc, -⟩ := programCounterPairSequencing u v hv
  rw [hvpc]
  refine ⟨hpc, hnpc, fun hseq => ⟨hpc.trans hseq, ?_⟩⟩
  rw [hnpc, hseq, BitVec.add_assoc]
  rfl

theorem add_four_aligned {a : Word} (ha : a.toNat % 4 = 0) : (a + 4#32).toNat % 4 = 0 := by
  bv_omega

theorem branchTarget_aligned {s : State} (hs : s.npc.toNat % 4 = 0) (offset : Half) :
    (branchTarget s offset).toNat % 4 = 0 := by
  have hshift : (signImm offset <<< 2).toNat % 4 = 0 := by
    rw [BitVec.toNat_shiftLeft, Nat.shiftLeft_eq]
    omega
  rw [branchTarget, BitVec.toNat_add]
  omega

/-- Putting one bit vector before another is multiplying it by a power of two and adding. -/
theorem toNat_append_eq_add {m n : Nat} (x : BitVec m) (y : BitVec n) :
    (x ++ y).toNat = x.toNat * 2 ^ n + y.toNat := by
  rw [BitVec.toNat_append, ← Nat.shiftLeft_add_eq_or_of_lt y.isLt, Nat.shiftLeft_eq]

theorem toNat_jumpTarget (s : State) (index : BitVec 26) :
    (jumpTarget s index).toNat = s.pc.toNat / 2 ^ 28 * 2 ^ 28 + 4 * index.toNat := by
  have hpc : s.pc.toNat < 2 ^ 32 := s.pc.isLt
  rw [jumpTarget, toNat_append_eq_add, toNat_append_eq_add, BitVec.extractLsb'_toNat, Nat.shiftRight_eq_div_pow,
    BitVec.toNat_ofNat]
  omega

theorem jumpTarget_aligned (s : State) (index : BitVec 26) : (jumpTarget s index).toNat % 4 = 0 := by
  rw [toNat_jumpTarget]
  omega

/-- The targets that are no register's value are the branch's and the jump's. -/
theorem controlTarget_cases {i : Instr} {s : State} {a : Word} (hj : jumpsToRegister i = false)
    (h : controlTarget i s = some a) : (∃ offset, a = branchTarget s offset) ∨ ∃ index, a = jumpTarget s index := by
  cases i with
  | jr | jalr => cases hj
  | j index | jal index => exact .inr ⟨index, (Option.some.inj h).symm⟩
  | bltz rs offset | bgez rs offset | bltzal rs offset | bgezal rs offset | beq rs rt offset | bne rs rt offset
  | blez rs offset | bgtz rs offset =>
    simp only [controlTarget] at h
    split at h
    · exact .inl ⟨offset, (Option.some.inj h).symm⟩
    · cases h
  | _ => cases h

/-- Settles O23: `npc` takes a branch's target, a jump's, or its own value plus 4, all multiples of 4. -/
theorem addressesStayAlignedUnlessRegisterJump : Obligations.AddressesStayAlignedUnlessRegisterJump := by
  intro s t i hfetch hstep hj hs
  obtain ⟨hpc, hnpc⟩ := npc_of_step hfetch hstep
  refine ⟨hpc ▸ hs, ?_⟩
  cases htarget : controlTarget i s with
  | none =>
    rw [hnpc, htarget]
    exact add_four_aligned hs
  | some a =>
    rw [hnpc, htarget]
    obtain ⟨offset, rfl⟩ | ⟨index, rfl⟩ := controlTarget_cases hj htarget
    · exact branchTarget_aligned hs offset
    · exact jumpTarget_aligned s index

end Sys2Proof.Machine

/-! ### Faults: what raises them and what they leave (60_exceptions.md R301 to R308) -/

namespace Sys2Proof.Machine

/-! No instruction is refused: each shape answers a next state or a fault. -/

theorem load_ne_refused (s : State) (rt : Reg) (ea : Word) (n : Nat) (f : Word → Word) (r : Refusal) :
    load s rt ea n f ≠ .refused r := by
  obtain ⟨-, h⟩ | ⟨-, _, -, h⟩ | ⟨-, -, h⟩ := load_cases s rt ea n f <;> simp [h]

theorem storeWordAt_ne_refused (s : State) (a v : Word) (r : Refusal) : storeWordAt s a v ≠ .refused r := by
  obtain ⟨_, -, h⟩ | ⟨-, h⟩ := storeWordAt_cases s a v <;> simp [h]

theorem storeLane_ne_refused (s : State) (ea : Word) (n : Nat) (f : Word → Word) (r : Refusal) :
    storeLane s ea n f ≠ .refused r := by
  obtain ⟨-, h⟩ | ⟨-, _, -, h⟩ | ⟨-, -, h⟩ := storeLane_cases s ea n f <;> simp [h, storeWordAt_ne_refused]

theorem storeWord_ne_refused (s : State) (ea v : Word) (r : Refusal) : storeWord s ea v ≠ .refused r := by
  obtain ⟨-, h⟩ | ⟨-, h⟩ := storeWord_cases s ea v <;> simp [h, storeWordAt_ne_refused]

theorem exec_ne_refused (i : Instr) (s : State) (r : Refusal) : exec i s ≠ .refused r := by
  intro h
  cases i with
  | lb | lbu | lh | lhu | lw | lwl | lwr => exact load_ne_refused _ _ _ _ _ _ h
  | sb | sh => exact storeLane_ne_refused _ _ _ _ _ h
  | sw => exact storeWord_ne_refused _ _ _ _ h
  | add | sub | addi | div | divu =>
    simp only [exec, execAdd, execSub, execAddi, execDiv, execDivu] at h
    split at h <;> cases h
  | _ => cases h

theorem step_ne_refused (s : State) (r : Refusal) : step s ≠ .refused r := by
  cases hf : fetch s with
  | error f => simp [step_of_fetch_error hf]
  | ok i => simp [step_of_fetch hf, exec_ne_refused]

/-- Settles O22: a step completes or faults, and the step command answers in both cases. -/
theorem noStepIsRefused : Obligations.NoStepIsRefused := by
  refine ⟨exec_ne_refused, step_ne_refused, fun s => ?_⟩
  obtain ⟨t, -, h⟩ | ⟨f, -, h⟩ | ⟨r, hr, -⟩ := stepCommand_cases s
  · exact ⟨_, _, h⟩
  · exact ⟨_, _, h⟩
  · exact absurd hr (step_ne_refused s r)

/-! Each cause of a fault raises it. -/

theorem load_of_misaligned {s : State} {rt : Reg} {ea : Word} {n : Nat} {f : Word → Word} (ha : ea.toNat % n ≠ 0) :
    load s rt ea n f = .fault .invalidAddress := by
  simpa [ha] using load_cases s rt ea n f

theorem storeLane_of_misaligned {s : State} {ea : Word} {n : Nat} {f : Word → Word} (ha : ea.toNat % n ≠ 0) :
    storeLane s ea n f = .fault .invalidAddress := by
  simpa [ha] using storeLane_cases s ea n f

theorem storeWord_of_misaligned {s : State} {ea v : Word} (ha : ea.toNat % 4 ≠ 0) :
    storeWord s ea v = .fault .invalidAddress := by
  simpa [ha] using storeWord_cases s ea v

theorem storeWord_of_aligned {s : State} {ea v : Word} (ha : ea.toNat % 4 = 0) :
    storeWord s ea v = storeWordAt s ea v := by
  simpa [ha] using storeWord_cases s ea v

/-- An instruction that accesses memory has one of three meanings. -/
theorem exec_of_memoryAccess {i : Instr} {s : State} {ea : Word} {n : Nat} (h : memoryAccess i s = some (ea, n)) :
    (∃ rt g, exec i s = load s rt ea n g ∧ readsMemory i = true ∧ writtenWord i s = none) ∨
      (∃ g, exec i s = storeLane s ea n g ∧ readsMemory i = true ∧
        writtenWord i s = some (g (s.mem.word (wordAddress ea)))) ∨
      (n = 4 ∧ ∃ v, exec i s = storeWord s ea v ∧ readsMemory i = false ∧ writtenWord i s = some v) := by
  cases i with
  | lb | lbu | lh | lhu | lw | lwl | lwr =>
    cases h
    exact .inl ⟨_, _, rfl, rfl, rfl⟩
  | sb | sh =>
    cases h
    exact .inr (.inl ⟨_, rfl, rfl, rfl⟩)
  | sw =>
    cases h
    exact .inr (.inr ⟨rfl, _, rfl, rfl, rfl⟩)
  | _ => cases h

theorem exec_of_misaligned {i : Instr} {s : State} {ea : Word} {n : Nat} (h : memoryAccess i s = some (ea, n))
    (ha : ea.toNat % n ≠ 0) : exec i s = .fault .invalidAddress := by
  obtain ⟨rt, g, hx, -⟩ | ⟨g, hx, -⟩ | ⟨rfl, v, hx, -⟩ := exec_of_memoryAccess h
  · exact hx.trans (load_of_misaligned ha)
  · exact hx.trans (storeLane_of_misaligned ha)
  · exact hx.trans (storeWord_of_misaligned ha)

theorem exec_of_read_status {i : Instr} {s : State} {ea : Word} {n : Nat} {status : MemStatus}
    (h : memoryAccess i s = some (ea, n)) (hr : readsMemory i = true) (ha : ea.toNat % n = 0)
    (hs : s.mem.answer (.read (wordAddress ea)) = some status) : exec i s = .fault (.memRead status) := by
  obtain ⟨rt, g, hx, -⟩ | ⟨g, hx, -⟩ | ⟨-, v, -, hr', -⟩ := exec_of_memoryAccess h
  · exact hx.trans (load_of_status ha hs)
  · exact hx.trans (storeLane_of_status ha hs)
  · simp [hr] at hr'

theorem exec_of_write_status {i : Instr} {s : State} {ea v : Word} {n : Nat} {status : MemStatus}
    (h : memoryAccess i s = some (ea, n)) (hv : writtenWord i s = some v) (ha : ea.toNat % n = 0)
    (hr : readsMemory i = true → Answers s (.read (wordAddress ea)))
    (hs : s.mem.answer (.write (wordAddress ea) v) = some status) :
    exec i s = .fault (.memWrite (wordAddress ea) status) := by
  obtain ⟨rt, g, -, -, hv'⟩ | ⟨g, hx, hr', hv'⟩ | ⟨rfl, u, hx, -, hv'⟩ := exec_of_memoryAccess h
  all_goals
    rw [hv] at hv'
    cases hv'
  · exact (hx.trans (storeLane_of_answer ha (hr hr'))).trans (storeWordAt_of_status hs)
  · rw [wordAddress_of_aligned ha] at hs ⊢
    exact (hx.trans (storeWord_of_aligned ha)).trans (storeWordAt_of_status hs)

/-- The causes of an instruction's faults are complete: it ends with a fault exactly when it has a cause of it. -/
theorem exec_fault_iff {i : Instr} {s : State} {f : Fault} : exec i s = .fault f ↔ Causes i s f := by
  refine ⟨exec_fault, fun h => ?_⟩
  cases f with
  | arithmeticOverflow =>
    obtain ⟨rd, rs, rt, rfl, ho⟩ | ⟨rd, rs, rt, rfl, ho⟩ | ⟨rt, rs, imm, rfl, ho⟩ := h
    all_goals exact if_pos ho
  | invalidInstruction => exact exec_invalidInstruction_iff.2 h
  | invalidAddress =>
    obtain ⟨ea, n, hacc, ha⟩ := h
    exact exec_of_misaligned hacc ha
  | memRead status =>
    obtain ⟨ea, n, hacc, hr, ha, hs⟩ := h
    exact exec_of_read_status hacc hr ha hs
  | memWrite a status =>
    obtain ⟨ea, n, v, hacc, hv, ha, rfl, hr, hs⟩ := h
    exact exec_of_write_status hacc hv ha hr hs

/-! The faults of a fetch. -/

theorem fetch_invalidAddress_iff {s : State} : fetch s = .error .invalidAddress ↔ s.pc.toNat % 4 ≠ 0 := by
  obtain ⟨ha, hf⟩ | ⟨ha, status, -, hf⟩ | ⟨ha, -, ⟨e, -, hf⟩ | ⟨i, -, hf⟩⟩ := fetch_cases s <;> simp [hf, ha]

theorem fetch_memRead_iff {s : State} {status : MemStatus} :
    fetch s = .error (.memRead status) ↔ s.pc.toNat % 4 = 0 ∧ s.mem.answer (.read s.pc) = some status := by
  obtain ⟨ha, hf⟩ | ⟨ha, status', hr, hf⟩ | ⟨ha, hr, ⟨e, -, hf⟩ | ⟨i, -, hf⟩⟩ := fetch_cases s <;> simp [*]

theorem fetch_ne_memWrite (s : State) (a : Word) (status : MemStatus) : fetch s ≠ .error (.memWrite a status) := by
  obtain ⟨ha, hf⟩ | ⟨ha, status', -, hf⟩ | ⟨ha, -, ⟨e, -, hf⟩ | ⟨i, -, hf⟩⟩ := fetch_cases s <;> simp [hf]

/-- Settles O20: the fetch's alignment check, or that of the instruction's access. -/
theorem invalidAddressCauses : Obligations.InvalidAddressCauses := by
  intro s
  rw [step_fault_iff, fetch_invalidAddress_iff]
  simp only [exec_fault_iff, Causes]
  tauto

/-- Settles O21: the requests of a step are the fetch's, the access's read and the store's write, and the first that
fails ends the step. -/
theorem memoryStatusCauses : Obligations.MemoryStatusCauses := by
  intro s status
  refine ⟨?_, fun a => ?_, fun st t hstep hcmd => ?_⟩
  · rw [step_fault_iff, fetch_memRead_iff]
    simp only [exec_fault_iff, Causes]
    tauto
  · rw [step_fault_iff]
    simp only [exec_fault_iff, Causes, fetch_ne_memWrite, false_or]
    constructor
    · rintro ⟨i, hf, ea, n, v, hacc, hv, hal, ha, hr, hw⟩
      exact ⟨i, ea, n, hf, hacc, hal, ha, hr, v, hv, hw⟩
    · rintro ⟨i, ea, n, hf, hacc, hal, ha, hr, v, hv, hw⟩
      exact ⟨i, hf, ea, n, v, hacc, hv, hal, ha, hr, hw⟩
  · obtain hstep | ⟨a, hstep⟩ := hstep
    all_goals
      rw [stepCommand_of_fault hstep] at hcmd
      cases hcmd
      rfl

/-! What a fault leaves. -/

/-- A step command that does not succeed ended with a fault. -/
theorem stepCommand_fault {s t : State} {st : Status} (h : stepCommand s = .ok (st, t)) (hst : st ≠ .success) :
    ∃ f, step s = .fault f ∧ st = f.status ∧ t = s.afterFault f := by
  obtain ⟨u, -, hu⟩ | ⟨f, hf, hu⟩ | ⟨r, -, hu⟩ := stepCommand_cases s
  all_goals
    rw [hu] at h
    cases h
  · exact absurd rfl hst
  · exact ⟨f, hf, rfl, rfl⟩

/-- A failed write leaves every byte outside its word, and the store itself, as they were. -/
theorem afterFault_memWrite_sameMemoryBut (s : State) (a : Word) (status : MemStatus) :
    SameMemoryBut a 4 s (s.afterFault (.memWrite a status)) :=
  ⟨fun _ hb => spoilWord_get_of_ne hb, spoilWord_size _ _, spoilWord_errors _ _⟩

/-- Settles O15: only the failed write of a store leaves memory otherwise than it was. -/
theorem faultsCommitNothing : Obligations.FaultsCommitNothing := by
  intro s st t hcmd hst
  obtain ⟨f, hstep, rfl, rfl⟩ := stepCommand_fault hcmd hst
  refine ⟨State.afterFault_gpr s f, State.afterFault_hi s f, State.afterFault_lo s f, State.afterFault_pc s f,
    State.afterFault_npc s f, ?_⟩
  cases f with
  | memWrite a status =>
    obtain ⟨-, hwrite, -⟩ := memoryStatusCauses s status
    obtain ⟨i, ea, n, hf, hacc, -, rfl, -, v, hv, hw⟩ := (hwrite a).1 hstep
    exact .inr ⟨i, ea, n, v, status, hf, hacc, hv, hw, rfl, afterFault_memWrite_sameMemoryBut s _ status⟩
  | _ => exact .inl rfl

/-- Each of the four bytes of a failed write takes its own free value when it lies in the store. -/
theorem spoilWord_get_add {m : Memory} {a : Word} {k : Nat} (hk : k < 4) :
    (spoilWord m a).get (a + BitVec.ofNat 32 k) =
      if (a + BitVec.ofNat 32 k).toNat < m.size then Config.failedWriteByte (m.freeIndex + k)
      else m.get (a + BitVec.ofNat 32 k) := by
  have hne {j : Nat} (hj : j < 4) : a + BitVec.ofNat 32 k = a + BitVec.ofNat 32 j ↔ k = j :=
    ⟨add_ofNat_inj hk hj, fun h => by rw [h]⟩
  have h0 := hne (j := 0) (by decide)
  have h1 := hne (j := 1) (by decide)
  have h2 := hne (j := 2) (by decide)
  have h3 := hne (j := 3) (by decide)
  rw [BitVec.add_zero] at h0
  simp only [spoilWord_get, spoilByte_get, spoilByte_size, h0, h1, h2, h3]
  match k, hk with
  | 0, _ => simp
  | 1, _ => simp
  | 2, _ => simp
  | 3, _ => simp

/-- Settles O16: the four bytes are spoiled in turn, and nothing else is touched. -/
theorem failedWriteBytesAreFree : Obligations.FailedWriteBytesAreFree := fun s a status _ =>
  ⟨_, rfl, fun _ hk => spoilWord_get_add hk, afterFault_memWrite_sameMemoryBut s a status, rfl, rfl, rfl, rfl, rfl, rfl⟩

/-! A fault comes again: its cause looks at the registers, the pair, the bytes and the answers of memory. -/

theorem SameMemory.answer {s t : State} (h : SameMemory s t) (r : Request) : t.mem.answer r = s.mem.answer r := by
  obtain ⟨-, hsize, herrors⟩ := h
  exact Memory.answer_congr hsize herrors r

theorem SameMemory.word {s t : State} (h : SameMemory s t) (a : Word) : t.mem.word a = s.mem.word a := by
  obtain ⟨hget, -, -⟩ := h
  exact Memory.word_congr hget a

section SameState
variable {s t : State} (hreg : SameRegs s t) (hmem : SameMemory s t)
include hreg

theorem effectiveAddress_congr (base : Reg) (offset : Half) :
    effectiveAddress t base offset = effectiveAddress s base offset := by
  rw [effectiveAddress, effectiveAddress, hreg]

theorem memoryAccess_congr (i : Instr) : memoryAccess i t = memoryAccess i s := by
  cases i <;> simp [memoryAccess, effectiveAddress_congr hreg]

include hmem

theorem writtenWord_congr (i : Instr) : writtenWord i t = writtenWord i s := by
  cases i <;> simp [writtenWord, effectiveAddress_congr hreg, hmem.word, hreg _]

theorem causes_congr {i : Instr} {f : Fault} : Causes i t f ↔ Causes i s f := by
  cases f <;> simp [Causes, memoryAccess_congr hreg, writtenWord_congr hreg hmem, hmem.answer, hreg _]

end SameState

theorem fetch_congr {s t : State} (hpc : t.pc = s.pc) (hmem : SameMemory s t) : fetch t = fetch s := by
  rw [fetch, fetch, memReadWord, memReadWord, hpc, hmem.answer, hmem.word]

theorem step_fault_congr {s t : State} {f : Fault} (hreg : SameRegs s t) (hpc : t.pc = s.pc) (hmem : SameMemory s t) :
    step t = .fault f ↔ step s = .fault f := by
  simp only [step_fault_iff, exec_fault_iff, fetch_congr hpc hmem, causes_congr hreg hmem]

/-- Settles O17: the state after the fault agrees with the one before it on all that the fault's cause looks at. -/
theorem faultsRepeat : Obligations.FaultsRepeat := by
  intro s st t hcmd hst hmem
  obtain ⟨f, hstep, rfl, rfl⟩ := stepCommand_fault hcmd hst
  have hreg : SameRegs s (s.afterFault f) := State.reg_eq_of_gpr (State.afterFault_gpr s f)
  have hstep' := (step_fault_congr hreg (State.afterFault_pc s f) hmem).2 hstep
  exact ⟨_, stepCommand_of_fault hstep'⟩

/-! ### Register 0 (10_state.md R31) -/

/-- Settles O14: reading ignores what the register file holds at 0, the commit forces it to zero, and the host's write
is discarded. -/
theorem registerZeroIsHardwired : Obligations.RegisterZeroIsHardwired := by
  refine ⟨State.reg_zero, fun s t hstep => ⟨?_, State.reg_zero t⟩, fun _ _ => rfl, fun _ _ => rfl⟩
  obtain ⟨i, -, hexec⟩ := step_next hstep
  obtain ⟨e, m, rfl, -⟩ := exec_next hexec
  exact State.commit_reg0 _ e

end Sys2Proof.Machine

/-! ### Memory requests and lanes (20_memory.md R63 to R66) -/

namespace Sys2Proof.Machine

theorem toNat_wordOfBytes (b0 b1 b2 b3 : Byte) :
    (wordOfBytes b0 b1 b2 b3).toNat = b0.toNat * 2 ^ 24 + b1.toNat * 2 ^ 16 + b2.toNat * 2 ^ 8 + b3.toNat := by
  rw [wordOfBytes, toNat_append_eq_add, toNat_append_eq_add, toNat_append_eq_add]
  omega

theorem toNat_byteOfWord (w : Word) (k : Nat) : (byteOfWord w k).toNat = w.toNat / 2 ^ (24 - 8 * k) % 2 ^ 8 := by
  rw [byteOfWord, BitVec.extractLsb'_toNat, Nat.shiftRight_eq_div_pow]

/-- The bytes that a word write puts in memory are the word's. -/
theorem Memory.get_setWord_add (m : Memory) (a v : Word) {k : Nat} (hk : k < 4) :
    (m.setWord a v).get (a + BitVec.ofNat 32 k) = byteOfWord v k := by
  rw [← byteOfWord_word _ _ hk, Memory.word_setWord]

theorem memReadWord_of_answer {s : State} {a : Word} (h : Answers s (.read a)) :
    memReadWord s a = .ok (s.mem.word a) := by
  simp [memReadWord, h]

theorem memReadWord_of_status {s : State} {a : Word} {status : MemStatus}
    (h : s.mem.answer (.read a) = some status) : memReadWord s a = .error (.memRead status) := by
  simp [memReadWord, h]

theorem memWriteWord_of_answer {s : State} {a v : Word} (h : Answers s (.write a v)) :
    memWriteWord s a v = .ok { s with mem := s.mem.setWord a v } := by
  simp [memWriteWord, h]

theorem memWriteWord_of_status {s : State} {a v : Word} {status : MemStatus}
    (h : s.mem.answer (.write a v) = some status) : memWriteWord s a v = .error (.memWrite a status) := by
  simp [memWriteWord, h]

/-- Settles O8: byte `k` of a word has the weight 2^(24-8k), for reading and for writing. -/
theorem wordRequestsAreBigEndian : Obligations.WordRequestsAreBigEndian := by
  intro s a v _
  have hbyte {k : Nat} (hk : k < 4) :
      ((s.mem.setWord a v).get (a + BitVec.ofNat 32 k)).toNat = v.toNat / 2 ^ (24 - 8 * k) % 2 ^ 8 := by
    rw [Memory.get_setWord_add _ _ _ hk, toNat_byteOfWord]
  have h0 := hbyte (k := 0) (by decide)
  have h3 := hbyte (k := 3) (by decide)
  have hmsb : v.toNat / 2 ^ 24 < 2 ^ 8 := Nat.div_lt_of_lt_mul v.isLt
  rw [BitVec.add_zero] at h0
  have hlsb : v.toNat / 2 ^ (24 - 8 * 3) = v.toNat := Nat.div_one _
  rw [hlsb] at h3
  exact ⟨fun hr => ⟨_, memReadWord_of_answer hr, toNat_wordOfBytes ..⟩, fun _ => memReadWord_of_status,
    fun hw => ⟨_, memWriteWord_of_answer hw, h0.trans (Nat.mod_eq_of_lt hmsb), hbyte (k := 1) (by decide),
      hbyte (k := 2) (by decide), h3, fun _ hb => Memory.get_setWord_of_ne hb, rfl, rfl⟩,
    fun _ => memWriteWord_of_status⟩

end Sys2Proof.Machine

/-! ### Addresses and jumps (42_branch_family.md, 44_branch_jump.md R245 to R247) -/

namespace Sys2Proof.Machine

theorem jumpTarget_eq_ofNat (s : State) (index : BitVec 26) :
    jumpTarget s index = BitVec.ofNat 32 (s.pc.toNat / 2 ^ 28 * 2 ^ 28 + 4 * index.toNat) := by
  rw [← toNat_jumpTarget, BitVec.ofNat_toNat, BitVec.setWidth_eq]

/-- Settles O45: each address as the integer that its bits stand for. -/
theorem addressArithmetic : Obligations.AddressArithmetic := by
  intro s base offset index
  refine ⟨add_signImm_eq_ofInt _ _, ?_, toNat_jumpTarget s index, ?_⟩
  · rw [branchTarget_eq_add_ofInt, BitVec.ofInt_add, BitVec.ofInt_natCast, BitVec.ofNat_toNat, BitVec.setWidth_eq]
  · rw [wordAddress_toNat]
    omega

/-- Settles O44: each is a branch that is always taken. -/
theorem absoluteJumps : Obligations.AbsoluteJumps := by
  intro s index
  rw [← jumpTarget_eq_ofNat]
  exact ⟨.intro (iff_of_true rfl trivial) rfl, .intro (iff_of_true rfl trivial) rfl⟩

/-- Settles O39: each is a branch that is always taken, its target the register's value at the start. -/
theorem registerJumps : Obligations.RegisterJumps := fun _ _ _ =>
  ⟨.intro (iff_of_true rfl trivial) rfl, .intro (iff_of_true rfl trivial) rfl⟩

/-- Settles O41: as for BLTZ and BGEZ, with the link. -/
theorem linkingSignBranches : Obligations.LinkingSignBranches := by
  intro s rs offset
  rw [← branchTarget_eq_add_ofInt]
  exact ⟨.intro (isNegative_iff _) rfl, .intro (isNonNegative_iff _) rfl⟩

end Sys2Proof.Machine

/-! ### Signed division (41_register_type.md R172) -/

namespace Sys2Proof.Machine

theorem signedQuotient_of_ne {a b : Word} (h : ¬(a = 0x80000000#32 ∧ b = 0xFFFFFFFF#32)) :
    signedQuotient a b = (BitVec.ofInt 32 (a.toInt.tmod b.toInt), BitVec.ofInt 32 (a.toInt.tdiv b.toInt)) := by
  rw [Int.tmod_def, Int.mul_comm]
  exact if_neg h

/-- The truncated quotient fits a word, but for the one pair that R172 leaves open. -/
theorem fitsSigned_tdiv {a b : Word} (h : ¬(a = 0x80000000#32 ∧ b = 0xFFFFFFFF#32)) :
    FitsSigned (a.toInt.tdiv b.toInt) := by
  rw [← BitVec.toInt_sdiv_of_ne_or_ne a b (not_and_or.1 h)]
  exact ⟨BitVec.le_toInt _, Int.le_of_lt_add_one BitVec.toInt_lt⟩

/-- The remainder of a truncated division is zero or has the dividend's sign. -/
theorem tmod_eq_zero_or_sign (a b : Int) : a.tmod b = 0 ∨ (a.tmod b < 0 ↔ a < 0) := by
  obtain ha | ha := lt_or_ge a 0
  · have hneg : 0 ≤ (-a).tmod b := Int.tmod_nonneg b (by omega)
    rw [Int.neg_tmod] at hneg
    omega
  · have hpos : 0 ≤ a.tmod b := Int.tmod_nonneg b ha
    omega

/-- Settles O36: the quotient and remainder of the truncated division. -/
theorem signedDivision : Obligations.SignedDivision := by
  intro s rs rt
  have hdiv (h0 : s.reg rt ≠ 0#32) := WritesHiLo.intro (i := .div rs rt) (p := signedQuotient _ _) (if_neg h0)
  refine ⟨fun h0 => if_pos h0, fun ha hb => ?_, fun h0 hne => ?_⟩
  · have hcorner : signedQuotient (s.reg rs) (s.reg rt) = Config.divMinNeg1 := if_pos ⟨ha, hb⟩
    rw [← hcorner]
    exact hdiv (by rw [hb]; decide)
  · have hdivisor : (s.reg rt).toInt ≠ 0 := fun h => h0 (BitVec.eq_of_toInt_eq (h.trans BitVec.toInt_zero.symm))
    have hlt : ((s.reg rs).toInt.tmod (s.reg rt).toInt).natAbs < (s.reg rt).toInt.natAbs := by
      rw [Int.natAbs_tmod]
      exact Nat.mod_lt _ (Int.natAbs_pos.2 hdivisor)
    have hwrites := hdiv h0
    rw [signedQuotient_of_ne hne] at hwrites
    exact ⟨_, _, (Int.tdiv_mul_add_tmod _ _).symm, hlt, tmod_eq_zero_or_sign _ _, fitsSigned_tdiv hne, hwrites⟩

end Sys2Proof.Machine

/-! ### Loads and stores of halfwords and words (45_load_store.md R265 to R272) -/

namespace Sys2Proof.Machine

/-- Settles O50: the lane a halfword load takes is the two bytes from the effective address on. -/
theorem loadHalfResults : Obligations.LoadHalfResults := by
  intro s rt base offset
  refine ⟨fun ha => ⟨load_of_misaligned ha, load_of_misaligned ha⟩, fun ha => ⟨fun hr => ?_, fun status hr => ?_⟩⟩
  · rw [← halfLane_word _ ha]
    exact ⟨.intro (load_of_answer ha hr), .intro (load_of_answer ha hr)⟩
  · exact ⟨load_of_status ha hr, load_of_status ha hr⟩

/-- Settles O51: at an aligned address the containing word is the word at the address. -/
theorem loadWordResults : Obligations.LoadWordResults := by
  intro s rt base offset
  refine ⟨fun ha => ⟨load_of_misaligned ha, load_of_misaligned ha⟩, fun ha => ?_⟩
  rw [← wordAddress_of_aligned ha]
  exact ⟨fun hr => ⟨.intro (load_of_answer ha hr), .intro (load_of_answer ha hr)⟩,
    fun status hr => ⟨load_of_status ha hr, load_of_status ha hr⟩⟩

theorem lwrResult_mergeLowByte_word (m : Memory) (old a : Word) :
    lwrResult .mergeLowByte old (m.word a) = BitVec.ofNat 32 (old.toNat / 256 * 256 + (m.get a).toNat) := by
  have hbyte : (m.word a).extractLsb' 24 8 = m.get a :=
    (byteOfWord_word m a (k := 0) (by decide)).trans (congrArg m.get (BitVec.add_zero a))
  have hold : old.toNat < 2 ^ 32 := old.isLt
  apply BitVec.eq_of_toNat_eq
  rw [lwrResult, hbyte, toNat_append_eq_add, BitVec.extractLsb'_toNat, Nat.shiftRight_eq_div_pow, BitVec.toNat_ofNat]
  omega

/-- Settles O52: both readings of the open parameter. -/
theorem loadWordRightResult : Obligations.LoadWordRightResult := by
  intro s rt base offset
  refine ⟨load_of_misaligned, fun ha => ⟨fun hr => ?_, fun status hr => ?_⟩⟩
  · rw [← wordAddress_of_aligned ha] at hr
    have hlwr : WritesReg (.lwr rt base offset) s rt _ := .intro (load_of_answer ha hr)
    rw [wordAddress_of_aligned ha] at hlwr
    cases hreading : Config.lwrAligned with
    | mergeLowByte => rwa [hreading, lwrResult_mergeLowByte_word] at hlwr
    | fullWord => rwa [hreading] at hlwr
  · rw [← wordAddress_of_aligned ha] at hr
    exact load_of_status ha hr

/-- The second byte of a halfword lies in the same word as the first. -/
theorem wordAddress_add_ofNat_eq_succ_iff {ea : Word} {k : Nat} (ha : ea.toNat % 2 = 0) (hk : k < 4) :
    wordAddress ea + BitVec.ofNat 32 k = ea + 1#32 ↔ k = lane ea + 1 := by
  have heven := lane_of_even ha
  have hlane : lane ea + 1 < 4 := by omega
  have hsucc : wordAddress ea + BitVec.ofNat 32 (lane ea + 1) = ea + 1#32 := by
    rw [BitVec.ofNat_add, ← BitVec.add_assoc, wordAddress_add_lane]
  rw [← hsucc]
  exact ⟨add_ofNat_inj hk hlane, fun h => by rw [h]⟩

/-- The word a halfword store writes back holds the new halfword at the effective address and what was read elsewhere
(20_memory.md R68). -/
theorem byteOfWord_setHalfLane_word (m : Memory) {ea : Word} (v : Half) (ha : ea.toNat % 2 = 0) {k : Nat}
    (hk : k < 4) :
    byteOfWord (setHalfLane (m.word (wordAddress ea)) (lane ea) v) k =
      if wordAddress ea + BitVec.ofNat 32 k = ea then v.extractLsb' 8 8
      else if wordAddress ea + BitVec.ofNat 32 k = ea + 1#32 then v.extractLsb' 0 8
      else m.get (wordAddress ea + BitVec.ofNat 32 k) := by
  rw [byteOfWord_setHalfLane _ _ hk (lane_of_even ha), byteOfWord_word _ _ hk]
  simp only [wordAddress_add_ofNat_eq_iff hk, wordAddress_add_ofNat_eq_succ_iff ha hk]

theorem extractLsb'_lowHalf (v : Word) :
    (lowHalf v).extractLsb' 8 8 = v.extractLsb' 8 8 ∧ (lowHalf v).extractLsb' 0 8 = v.extractLsb' 0 8 :=
  ⟨BitVec.extractLsb'_extractLsb'_of_le (by decide), BitVec.extractLsb'_extractLsb'_of_le (by decide)⟩

/-- Settles O54: the word written is the word read with one halfword replaced, so that the write changes two bytes. -/
theorem storeHalfResult : Obligations.StoreHalfResult := by
  intro s rt base offset
  obtain ⟨hhigh, hlow⟩ := extractLsb'_lowHalf (s.reg rt)
  rw [← hhigh, ← hlow]
  refine ⟨storeLane_of_misaligned, fun ha => ⟨fun hr => ⟨_, fun k hk => byteOfWord_setHalfLane_word _ _ ha hk,
    fun hw => ?_, fun status hw => ?_⟩, fun status hr => storeLane_of_status ha hr⟩⟩
  · refine .intro (storeLane_of_answer ha hr) hw (fun k hk => ?_)
      (fun b hb => get_setWord_writtenWord (i := .sh rt base offset) rfl rfl ha rfl hb)
    rw [get_setWord_setHalfLane _ _ _ ha]
    match k, hk with
    | 0, _ => simp
    | 1, _ => simp
  · exact (storeLane_of_answer ha hr).trans (storeWordAt_of_status hw)

/-- Settles O55: a word store is one write request. -/
theorem storeWordResult : Obligations.StoreWordResult := by
  intro s rt base offset
  refine ⟨storeWord_of_misaligned, fun ha => ⟨fun hw => ?_, fun status hw => ?_⟩⟩
  · refine .intro (storeWord_of_aligned ha) hw (fun k hk => ?_) (fun b hb => Memory.get_setWord_of_ne hb)
    rw [Memory.get_setWord_add _ _ _ hk]
    match k, hk with
    | 0, _ | 1, _ | 2, _ | 3, _ => rfl
  · exact (storeWord_of_aligned ha).trans (storeWordAt_of_status hw)

/-! ### A store and what reads it back: a load, or the next fetch (20_memory.md R66, R79) -/

theorem fetch_of_decodeWord {s : State} {i : Instr} (ha : s.pc.toNat % 4 = 0) (hr : Answers s (.read s.pc))
    (hd : decodeWord (s.mem.word s.pc) = .ok i) : fetch s = .ok i := by
  simpa [ha, hr, hd] using fetch_cases s

theorem decodeBytes_bytesAt (s : State) (a : Word) :
    decodeBytes (bytesAt s a) = (decodeWord (s.mem.word a)).map fun i => (i, []) :=
  decodeBytes_cons ..

/-- Settles O7: the bytes at `pc` stand for the word that the fetch requests. -/
theorem stepRunsDecodedInstruction : Obligations.StepRunsDecodedInstruction := by
  intro s i ha hr hd
  rw [decodeBytes_bytesAt] at hd
  have hword : decodeWord (s.mem.word s.pc) = .ok i := by
    cases hw : decodeWord (s.mem.word s.pc) with
    | error e => simp [hw, Except.map] at hd
    | ok j => simpa [hw, Except.map] using hd
  have hf := fetch_of_decodeWord ha hr hword
  exact ⟨hf, step_of_fetch hf⟩

/-- The state after SW: the word written, and the commit. -/
theorem exec_sw_of_answer {s : State} {rt base : Reg} {offset : Half}
    (ha : (effectiveAddress s base offset).toNat % 4 = 0)
    (hw : Answers s (.write (effectiveAddress s base offset) (s.reg rt))) :
    exec (.sw rt base offset) s =
      .next (State.commit { s with mem := s.mem.setWord (effectiveAddress s base offset) (s.reg rt) } {}) :=
  (storeWord_of_aligned ha).trans (storeWordAt_of_answer hw)

theorem effectiveAddress_commit_withMem (s : State) (m : Memory) (base : Reg) (offset : Half) :
    effectiveAddress (State.commit { s with mem := m } {}) base offset = effectiveAddress s base offset :=
  effectiveAddress_congr (commit_withMem s m).1 base offset

/-- Settles O25: the fetch after the store reads the word stored. -/
theorem storedInstructionIsFetched : Obligations.StoredInstructionIsFetched := by
  intro s rt base offset i ha hea hw hr hd
  rw [← hea] at ha hw
  refine ⟨_, exec_sw_of_answer ha hw, step_of_fetch (fetch_of_decodeWord ?_ hr ?_)⟩
  · rwa [hea] at ha
  · rw [State.commit_mem, State.commit_pc, hea, Memory.word_setWord]
    exact hd

/-- Settles O26: SW leaves the registers, so that LW accesses the same address, and memory holds the word there. -/
theorem storeThenLoadWord : Obligations.StoreThenLoadWord := by
  intro s rt rd base offset ha hw hr
  have hu := exec_sw_of_answer ha hw
  have hea := effectiveAddress_commit_withMem s (s.mem.setWord (effectiveAddress s base offset) (s.reg rt)) base offset
  obtain ⟨hload, -⟩ := (loadWordResults _ rd base offset).2 (hea ▸ ha)
  obtain ⟨⟨v, hv, hreg, -⟩, -⟩ := hload (by
    rw [hea]
    exact hr)
  rw [hea, State.commit_mem, Memory.word_setWord] at hreg
  exact ⟨_, v, hu, hv, hreg⟩

theorem wordAddress_add_ofNat {a : Word} {k : Nat} (ha : a.toNat % 4 = 0) (hk : k < 4) :
    wordAddress (a + BitVec.ofNat 32 k) = a := by
  have hlt := a.isLt
  apply BitVec.eq_of_toNat_eq
  rw [wordAddress_toNat, BitVec.toNat_add, BitVec.toNat_ofNat]
  omega

/-- Settles O27: the lanes are the bytes of memory, and LB `k` bytes after SW reads byte `k` of the word written. -/
theorem lanesAreBigEndian : Obligations.LanesAreBigEndian := by
  refine ⟨fun m ea => (byteLane_word m ea).symm, fun m ea ha => (halfLane_word m ha).symm, ?_⟩
  intro s rt rd base offset offset' k hk ha hoff hw hr
  have hu := exec_sw_of_answer ha hw
  have hea := effectiveAddress_commit_withMem s (s.mem.setWord (effectiveAddress s base offset) (s.reg rt)) base offset'
  rw [hoff] at hea
  obtain ⟨hload, -⟩ := loadByteResults _ rd base offset'
  obtain ⟨⟨v, hv, hreg, -⟩, -⟩ := hload (by
    rw [hea, wordAddress_add_ofNat ha hk]
    exact hr)
  rw [hea, State.commit_mem, Memory.get_setWord_add _ _ _ hk] at hreg
  exact ⟨_, v, hu, hv, hreg⟩

end Sys2Proof.Machine

/-! ### The host's commands (40_execution_core.md R134 to R142, 70_reset_and_hazards.md R340) -/

namespace Sys2Proof.Machine

theorem State.reg_of_gpr_replicate {s : State} (h : s.gpr = Vector.replicate 32 0#32) (r : Reg) : s.reg r = 0#32 := by
  simp [State.reg, h]

theorem State.reg_setReg_self (s : State) (r : Reg) (v : Word) :
    (s.setReg r v).reg r = if r = 0 then 0#32 else v := by
  by_cases hr : r = 0 <;> simp [State.setReg, State.reg, hr]

theorem State.setReg_sameRegsBut (s : State) (r : Reg) (v : Word) : SameRegsBut r s (s.setReg r v) := by
  intro q hq
  have hne : r.val ≠ q.val := fun h => hq (Fin.ext h.symm)
  by_cases hr : r = 0 <;> simp [State.setReg, State.reg, hr, Vector.getElem_set_ne, hne]

theorem State.setReg_frame (s : State) (r : Reg) (v : Word) :
    SameHiLo s (s.setReg r v) ∧ (s.setReg r v).pc = s.pc ∧ (s.setReg r v).npc = s.npc ∧ (s.setReg r v).mem = s.mem := by
  by_cases hr : r = 0 <;> simp [State.setReg, SameHiLo, hr]

/-- Settles O56: the reset state with the memory that is bound. -/
theorem resetCommandRestoresState : Obligations.ResetCommandRestoresState := fun _ =>
  ⟨_, rfl, State.reg_of_gpr_replicate rfl, rfl, rfl, rfl, rfl, rfl⟩

/-- Settles O57: the state of construction, whose fetch requests the word at address 0. -/
theorem constructionStartsAtZero : Obligations.ConstructionStartsAtZero := by
  intro m
  refine ⟨State.create m, fun h => ?_, State.reg_of_gpr_replicate rfl, rfl, rfl, rfl, rfl, rfl, fun i hr hd => ?_⟩
  · cases h <;> rfl
  · have hfetch : fetch (State.create m) = .ok i := fetch_of_decodeWord rfl hr hd
    exact ⟨step_of_fetch hfetch, fun u hu => (npc_of_step hfetch hu).1⟩

/-- Settles O58: a register write is `setReg`, whose index is checked; the other accessors name their field. -/
theorem accessorsTouchOnlyTheirItem : Obligations.AccessorsTouchOnlyTheirItem := by
  intro s v
  refine ⟨fun r => ?_, fun r => ⟨s.setReg r v, ?_, s.reg_setReg_self r v, s.setReg_sameRegsBut r v,
    s.setReg_frame r v⟩, fun n hn => ?_, rfl, rfl, rfl, rfl, rfl, rfl, rfl, rfl⟩
  · simp [command, commandOnCore, Reply.read]
  · simp [command, commandOnCore, Reply.done]
  · have hlt : ¬n < 32 := by omega
    simp [command, commandOnCore, hlt]

/-- Settles O59: without a core only `create` has an effect. -/
theorem missingCoreReturnsInvalidHandle : Obligations.MissingCoreReturnsInvalidHandle := by
  intro c hc
  refine ⟨?_, fun s => rfl⟩
  cases c with
  | create m => exact absurd rfl (hc m)
  | _ => rfl

end Sys2Proof.Machine

/-! ### The spec's decoding examples (95_test_vectors.md E1 to E9) -/

namespace Sys2Proof

/-- Settles O6: the decoder evaluated on each word. -/
theorem specWordsDecode : Obligations.SpecWordsDecode := by
  unfold Obligations.SpecWordsDecode
  decide

end Sys2Proof
